-- ==== Sys2Proof/Word.lean ====
section
/-! DEFINITION. The plainest data types of the block: bytes, Pairs, Trains, the five symbols and the two units.
Nothing here computes; every computation a test could show wrong stands in Decode.lean or under Machine/. -/

namespace Sys2Proof

/-- A record byte, 8 bits; bit 0 is its least significant bit (R14, R26). -/
abbrev Byte := BitVec 8

/-- The 128 bits of a record as the host interface carries them, byte `a` at bits `[8a+7:8a]` (R40). -/
abbrev RecordBits := BitVec 128

/-- A Pair `(m, s)`: a mark duration and the space duration that follows it, natural numbers of `tu`
(R16, R31, R71; unbounded by R11). -/
structure Pair where
  mark : Nat
  space : Nat
  deriving DecidableEq, Repr

/-- A Train: a finite ordered list of Pairs, indexed from 0 (R16, R31). -/
abbrev Train := List Pair

/-- The five symbols, each a canonical Pair (R72). -/
inductive Sym where
  | zero
  | one
  | hdr
  | gap
  | gap2
  deriving DecidableEq, Repr

/-- The two processing units of the block (R20, R162). -/
inductive UnitId where
  | enc
  | dec
  deriving DecidableEq, Repr

end Sys2Proof
end

