-- ==== Sys2Proof/Machine/Operands.lean ====
section
/-! DEFINITION. The operand forms of the block: the block address `lo` of BYTES, the byte and bit a sub-step works on, the linear
bit address of a record, the bytes and bits of the 128 record bits, and writing one bit of a byte. -/

namespace Sys2Proof.Machine

/-- The legal operands of `BYTES`: the first byte address of a block, 0, 4, 8 or 12 (R88). -/
def blockLegal (lo : BitVec 5) : Bool :=
  lo == 0 || lo == 4 || lo == 8 || lo == 12

/-- The byte address of sub-step `k` of `BYTES lo`: `lo + k/8` (R94, R103, R125). -/
def blockByte (lo : BitVec 5) (k : Nat) : Nat :=
  lo.toNat + k / 8

/-- The bit number of sub-step `k` of `BYTES`: `k % 8` (R94, R103, R125). -/
def blockBit (k : Nat) : Nat :=
  k % 8

/-- `a` is an address of the record buffer, 0 to 15, and `b` a bit number, 0 to 7 (R15, R50, R104, R124). -/
def recordBitExists (a b : Nat) : Bool :=
  a < 16 && b < 8

/-- Byte `a` of the 128 record bits, at bits `[8a+7:8a]` (R40). -/
def recByte (r : RecordBits) (a : Nat) : Byte :=
  r.extractLsb' (8 * a) 8

/-- `recbit(r, j) = r[j / 8][j % 8]`, the bit at linear bit address `j` (R15). -/
def recBit (r : RecordBits) (j : Nat) : Bool :=
  (recByte r (j / 8)).getLsbD (j % 8)

/-- `x` with bit `b` set to `v`, the bit write `x[b] <- v` of R124. -/
def withBit (x : Byte) (b : Nat) (v : Bool) : Byte :=
  if v then x ||| (1#8 <<< b) else x &&& ~~~(1#8 <<< b)

end Sys2Proof.Machine
end

