-- ==== Sys2Proof/Config.lean ====
section
/-! DEFINITION. What an implementation fixes: the fixed sizes, the type of the constants ROM (its default values stand in
Machine/Timing.lean, and State holds the ROM itself), the named fields of the record, and the open parameters of the spec
as uninterpreted constants (MATCH, FIELD_LAYOUT, TIME_UNIT). -/

namespace Sys2Proof

/-- The constants ROM (R22): the tick counts of R8 and R9, the carrier frequency and the footer pattern, bit `i` of
`footerPattern` being the `i`-th footer bit on the wire. State holds one as a value that no operation writes; R8 and R9 ask for
configurable defaults, so statements are made for every value of it, or name the default. -/
structure TimingRom where
  tick : Nat
  hdrMarkT : Nat
  hdrSpaceT : Nat
  bitMarkT : Nat
  oneSpaceT : Nat
  zeroSpaceT : Nat
  gapSpaceT : Nat
  gap2Factor : Nat
  gapMarkT : Nat
  carrierHz : Nat
  footerPattern : BitVec 3
  deriving DecidableEq, Repr

/-- The type of the open parameter MATCH: `MATCH(measured, expected)` (R12, R122). -/
abbrev Matcher := Pair → Pair → Bool

/-- The named fields of the record's field view (R27). -/
inductive Field where
  | mode
  | power
  | fanSpeed
  | swingAuto
  | temperature
  | turbo
  | light
  | ionFilter
  | xFan
  | verticalSwing
  | horizontalSwing
  | checksum1
  | checksum2
  | quiet
  | fan
  deriving DecidableEq, Repr

/-- The type of the open parameter FIELD_LAYOUT: the bit offset of each named field (R13, R27). -/
abbrev FieldLayout := Field → Nat

/-- RECORD_BYTES (R7). -/
abbrev Config.recordBytes : Nat := 16

/-- PAIRS_PER_FRAME (R84). -/
abbrev Config.pairsPerFrame : Nat := 140

/-- MATCH, the receiver's tolerance (R12, R122, decision D6): an open parameter, so a constant without a body. The machine's
step runs under it; `execUnder` and `stepUnder` run the same machine under any other matcher. Log entry 4. -/
opaque Config.matchFn : Matcher

/-- FIELD_LAYOUT (R13, decision D16): an open parameter, so a constant without a body. No rule of either unit depends on it.
Log entry 5. -/
opaque Config.fieldLayout : FieldLayout

/-- TIME_UNIT (R10, decision D2): the physical length of one `tu`, an open parameter that no rule depends on. Log entry 6. -/
opaque Config.timeUnit : Nat

end Sys2Proof
end

