-- ==== Sys2Proof/Syntax.lean ====
section
/-! DEFINITION. The instructions: one constructor per row of spec/opcode_table.json. Also the layer (R70) an instruction's word
belongs to. -/

namespace Sys2Proof

/-- The 22 rows of the opcode table. The operands of ENCODE and DECODE stand in the host interface (`recIn`, `trainIn`), not in
the 2-bit command word, so the constructors carry none. -/
inductive Instr where
  /-- Host command `ENCODE` (R90, R100). -/
  | encode
  /-- Host command `DECODE` (R90, R120). -/
  | decode
  /-- `ENC.CARRIER` (R101). -/
  | encCarrier
  /-- `ENC.HDR` (R102). -/
  | encHdr
  /-- `ENC.BYTES lo`, `lo` the 5-bit arg of the word (R88, R103). -/
  | encBytes (lo : BitVec 5)
  /-- `ENC.FOOTER` (R105). -/
  | encFooter
  /-- `ENC.GAP` (R106). -/
  | encGap
  /-- `ENC.GAP2` (R107). -/
  | encGap2
  /-- `ENC.END` (R108). -/
  | encEnd
  /-- `DEC.HDR` (R123). -/
  | decHdr
  /-- `DEC.BYTES lo` (R88, R125). -/
  | decBytes (lo : BitVec 5)
  /-- `DEC.FOOTER` (R127). -/
  | decFooter
  /-- `DEC.GAP` (R128). -/
  | decGap
  /-- `DEC.GAP2` (R129). -/
  | decGap2
  /-- `DEC.END` (R130). -/
  | decEnd
  /-- Pseudo-operation `E.BIT a, b`, sub-step of `ENC.BYTES` (R94, R104). -/
  | eBit (a b : Nat)
  /-- Pseudo-operation `D.BIT a, b`, sub-step of `DEC.BYTES` (R94, R124). -/
  | dBit (a b : Nat)
  /-- The symbol ZERO on the wire (R76). -/
  | symZero
  /-- The symbol ONE on the wire (R75). -/
  | symOne
  /-- The symbol HDR on the wire (R74). -/
  | symHdr
  /-- The symbol GAP on the wire (R77). -/
  | symGap
  /-- The symbol GAP2 on the wire (R78). -/
  | symGap2
  deriving DecidableEq, Repr

/-- The encoding layers of R70 that have binary words, with the micro-operation layer once per unit, and `pseudo` for the two
operations that have no word of their own (R94). -/
inductive Layer where
  | command
  | uop (u : UnitId)
  | wire
  | pseudo
  deriving DecidableEq, Repr

/-- The layer an instruction belongs to. -/
def Instr.layer : Instr → Layer
  | .encode => .command
  | .decode => .command
  | .encCarrier => .uop .enc
  | .encHdr => .uop .enc
  | .encBytes _ => .uop .enc
  | .encFooter => .uop .enc
  | .encGap => .uop .enc
  | .encGap2 => .uop .enc
  | .encEnd => .uop .enc
  | .decHdr => .uop .dec
  | .decBytes _ => .uop .dec
  | .decFooter => .uop .dec
  | .decGap => .uop .dec
  | .decGap2 => .uop .dec
  | .decEnd => .uop .dec
  | .eBit _ _ => .pseudo
  | .dBit _ _ => .pseudo
  | .symZero => .wire
  | .symOne => .wire
  | .symHdr => .wire
  | .symGap => .wire
  | .symGap2 => .wire

end Sys2Proof
end

