-- ==== Sys2Proof/WellFormed.lean ====
section
/-! DEFINITION. Which terms of Instr are instructions of the block: BYTES takes a legal block address (R88, R89), the two bit
pseudo-operations take a record byte address 0..15 and a bit number 0..7 (R104, R124). -/

namespace Sys2Proof

/-- The well-formedness check, one line per constructor. -/
def Instr.wellFormed : Instr → Bool
  | .encode => true
  | .decode => true
  | .encCarrier => true
  | .encHdr => true
  | .encBytes lo => Machine.blockLegal lo
  | .encFooter => true
  | .encGap => true
  | .encGap2 => true
  | .encEnd => true
  | .decHdr => true
  | .decBytes lo => Machine.blockLegal lo
  | .decFooter => true
  | .decGap => true
  | .decGap2 => true
  | .decEnd => true
  | .eBit a b => Machine.recordBitExists a b
  | .dBit a b => Machine.recordBitExists a b
  | .symZero => true
  | .symOne => true
  | .symHdr => true
  | .symGap => true
  | .symGap2 => true

/-- `i` is an instruction of the block. -/
abbrev WellFormed (i : Instr) : Prop := i.wellFormed = true

end Sys2Proof
end

