-- ==== Sys2Proof/Decode.lean ====
section
/-! DEFINITION. The decoder, total on every word of every layer and rejecting by name, and the encoder, written from the encoding
tables of spec/30_encoding.md (R71, R72, R86 to R90) and spec/opcode_table.json. -/

namespace Sys2Proof

/-- An encoded word, tagged with the layer that holds it (R70): a 2-bit host command, an 8-bit micro-operation word of one unit's
schedule ROM, or the 32-bit PAIR32 notation of a symbol. -/
inductive Code where
  | cmd (c : BitVec 2)
  | uop (u : UnitId) (w : BitVec 8)
  | wire (w : BitVec 32)
  deriving DecidableEq, Repr

/-- Why a word is no instruction. -/
inductive Reject where
  /-- `CMD = 00`: NONE, no transaction starts (R90). -/
  | noCommand
  /-- `CMD = 11`: reserved, a model refuses it (R90, R152). -/
  | reservedCommand
  /-- op 111 (R88, R89). -/
  | reservedOp
  /-- A nonzero arg with an op other than BYTES, or BYTES with an arg that is no block address (R89). -/
  | illegalArg
  /-- `CARRIER` in DEC_ROM (R89). -/
  | carrierInDec
  /-- A 32-bit word that is the PAIR32 of none of the five symbols (R72, R74 to R78). -/
  | notASymbol
  deriving DecidableEq, Repr

/-- The layer of a word. -/
def Code.layer : Code → Layer
  | .cmd _ => .command
  | .uop u _ => .uop u
  | .wire _ => .wire

/-- The op field of a micro-operation word, `word[7:5]` (R88). -/
def uopOp (w : BitVec 8) : BitVec 3 := w.extractLsb' 5 3

/-- The arg field of a micro-operation word, `word[4:0]` (R88). -/
def uopArg (w : BitVec 8) : BitVec 5 := w.extractLsb' 0 5

/-- The instruction for the unit that executes the word. -/
def forUnit (u : UnitId) (e d : Instr) : Instr :=
  match u with
  | .enc => e
  | .dec => d

/-- An op without an operand: its arg must be 0 (R88). -/
def withZeroArg (arg : BitVec 5) (i : Instr) : Except Reject Instr :=
  if arg = 0 then .ok i else .error .illegalArg

/-- A host command word (R90). -/
def decodeCmd (c : BitVec 2) : Except Reject Instr :=
  if c = 0b00 then .error .noCommand
  else if c = 0b01 then .ok .encode
  else if c = 0b10 then .ok .decode
  else .error .reservedCommand

/-- A micro-operation word of unit `u` (R88, R89). -/
def decodeUop (u : UnitId) (w : BitVec 8) : Except Reject Instr :=
  let op := uopOp w
  let arg := uopArg w
  if op = 0b000 then
    match u with
    | .enc => withZeroArg arg .encCarrier
    | .dec => .error .carrierInDec
  else if op = 0b001 then withZeroArg arg (forUnit u .encHdr .decHdr)
  else if op = 0b010 then
    if Machine.blockLegal arg then .ok (forUnit u (.encBytes arg) (.decBytes arg)) else .error .illegalArg
  else if op = 0b011 then withZeroArg arg (forUnit u .encFooter .decFooter)
  else if op = 0b100 then withZeroArg arg (forUnit u .encGap .decGap)
  else if op = 0b101 then withZeroArg arg (forUnit u .encGap2 .decGap2)
  else if op = 0b110 then withZeroArg arg (forUnit u .encEnd .decEnd)
  else .error .reservedOp

/-- The instruction of a symbol row. -/
def symInstr : Sym → Instr
  | .zero => .symZero
  | .one => .symOne
  | .hdr => .symHdr
  | .gap => .symGap
  | .gap2 => .symGap2

/-- The symbol that a PAIR32 word of the opcode table writes down: the five canonical words of R74 to R78. PAIR32 is notation (R71); the
machine handles Pairs. -/
def symOfWord (w : BitVec 32) : Option Sym :=
  if w = 0x02A801FE then some .zero
  else if w = 0x02A805FA then some .one
  else if w = 0x23321199 then some .hdr
  else if w = 0x02A84E07 then some .gap
  else if w = 0x02A89C0E then some .gap2
  else none

/-- A PAIR32 word of the opcode table (R71, R72). -/
def decodeWire (w : BitVec 32) : Except Reject Instr :=
  match symOfWord w with
  | some y => .ok (symInstr y)
  | none => .error .notASymbol

/-- The decoder, total on every word. -/
def decode : Code → Except Reject Instr
  | .cmd c => decodeCmd c
  | .uop u w => decodeUop u w
  | .wire w => decodeWire w

/-- A micro-operation word from its op and arg: `{op, arg}` (R88). -/
def uopWord (op : BitVec 3) (arg : BitVec 5) : BitVec 8 := op ++ arg

/-- The encoder: the word of an instruction; the pseudo-operations have none (R94). -/
def encode : Instr → Option Code
  | .encode => some (.cmd 0b01)
  | .decode => some (.cmd 0b10)
  | .encCarrier => some (.uop .enc (uopWord 0b000 0))
  | .encHdr => some (.uop .enc (uopWord 0b001 0))
  | .encBytes lo => some (.uop .enc (uopWord 0b010 lo))
  | .encFooter => some (.uop .enc (uopWord 0b011 0))
  | .encGap => some (.uop .enc (uopWord 0b100 0))
  | .encGap2 => some (.uop .enc (uopWord 0b101 0))
  | .encEnd => some (.uop .enc (uopWord 0b110 0))
  | .decHdr => some (.uop .dec (uopWord 0b001 0))
  | .decBytes lo => some (.uop .dec (uopWord 0b010 lo))
  | .decFooter => some (.uop .dec (uopWord 0b011 0))
  | .decGap => some (.uop .dec (uopWord 0b100 0))
  | .decGap2 => some (.uop .dec (uopWord 0b101 0))
  | .decEnd => some (.uop .dec (uopWord 0b110 0))
  | .eBit _ _ => none
  | .dBit _ _ => none
  | .symZero => some (.wire 0x02A801FE)
  | .symOne => some (.wire 0x02A805FA)
  | .symHdr => some (.wire 0x23321199)
  | .symGap => some (.wire 0x02A84E07)
  | .symGap2 => some (.wire 0x02A89C0E)

/-- The layer of a bare table word, for a reader that has only the number and its length: 32 bits are a PAIR32 word; 8 bits (or
the bare 2) with value 1 or 2 are the host commands, which are no legal micro-operation words (R89); any other 8 bits are a
micro-operation word, read for unit `u`, since the same words stand in both schedule ROMs (R86, R87). Log entry 15. -/
def tableCode (u : UnitId) (nbits w : Nat) : Option Code :=
  if nbits = 32 then if w < 2 ^ 32 then some (.wire (BitVec.ofNat 32 w)) else none
  else if nbits = 8 then
    if w = 1 || w = 2 then some (.cmd (BitVec.ofNat 2 w))
    else if w < 2 ^ 8 then some (.uop u (BitVec.ofNat 8 w)) else none
  else if nbits = 2 then if w < 2 ^ 2 then some (.cmd (BitVec.ofNat 2 w)) else none
  else none

/-- The instruction the decoder reads from a table row's bits, micro-operation words being read as the encoder's (the first of
the two units that share them). -/
def decodeTableWord (nbits w : Nat) : Option Instr :=
  match tableCode .enc nbits w with
  | none => none
  | some c =>
    match decode c with
    | .ok i => some i
    | .error _ => none

end Sys2Proof
end

