-- ==== Sys2Proof/Machine/Timing.lean ====
section
/-! DEFINITION. The default contents of the constants ROM, the canonical durations, the five symbols as Pairs, the symbol codes
and the PAIR32 notation (R8, R9, R22 to R24, R71 to R79). -/

namespace Sys2Proof

/-- The hardwired contents of the constants ROM: the defaults of R8 and R9, the pattern 0,1,0 of R7 (R22). -/
def TimingRom.spec : TimingRom where
  tick := 85
  hdrMarkT := 106
  hdrSpaceT := 53
  bitMarkT := 8
  oneSpaceT := 18
  zeroSpaceT := 6
  gapSpaceT := 235
  gap2Factor := 2
  gapMarkT := 8
  carrierHz := 38000
  footerPattern := 0b010

/-- HDR_MARK (R23). -/
def TimingRom.hdrMark (rom : TimingRom) : Nat := rom.hdrMarkT * rom.tick

/-- HDR_SPACE (R23). -/
def TimingRom.hdrSpace (rom : TimingRom) : Nat := rom.hdrSpaceT * rom.tick

/-- BIT_MARK, the same for both bit values (R23, R24). -/
def TimingRom.bitMark (rom : TimingRom) : Nat := rom.bitMarkT * rom.tick

/-- ONE_SPACE (R23). -/
def TimingRom.oneSpace (rom : TimingRom) : Nat := rom.oneSpaceT * rom.tick

/-- ZERO_SPACE (R23). -/
def TimingRom.zeroSpace (rom : TimingRom) : Nat := rom.zeroSpaceT * rom.tick

/-- GAP_SPACE (R23). -/
def TimingRom.gapSpace (rom : TimingRom) : Nat := rom.gapSpaceT * rom.tick

/-- GAP2_SPACE = GAP2_FACTOR × GAP_SPACE (R23, R107). -/
def TimingRom.gap2Space (rom : TimingRom) : Nat := rom.gap2Factor * rom.gapSpace

/-- GAP_MARK (R9, R23, decision D4). -/
def TimingRom.gapMark (rom : TimingRom) : Nat := rom.gapMarkT * rom.tick

namespace Machine

/-- The canonical Pair of a symbol under the constants ROM (R72 to R78). -/
def symPair (rom : TimingRom) : Sym → Pair
  | .zero => ⟨rom.bitMark, rom.zeroSpace⟩
  | .one => ⟨rom.bitMark, rom.oneSpace⟩
  | .hdr => ⟨rom.hdrMark, rom.hdrSpace⟩
  | .gap => ⟨rom.gapMark, rom.gapSpace⟩
  | .gap2 => ⟨rom.gapMark, rom.gap2Space⟩

/-- `bitsym(v)`: the symbol of a data bit (R79). -/
def bitSym (v : Bool) : Sym :=
  if v then .one else .zero

/-- The three footer symbols in transmission order, from the ROM's footer pattern (R22, R82). -/
def footerSyms (rom : TimingRom) : List Sym :=
  [bitSym (rom.footerPattern.getLsbD 0), bitSym (rom.footerPattern.getLsbD 1), bitSym (rom.footerPattern.getLsbD 2)]

/-- The 3-bit symbol code (R72). -/
def symCode : Sym → BitVec 3
  | .zero => 0
  | .one => 1
  | .hdr => 2
  | .gap => 3
  | .gap2 => 4

/-- The symbol of a code; codes 5, 6 and 7 are reserved and refused (R72). -/
def symOfCode (c : BitVec 3) : Option Sym :=
  if c = 0 then some .zero
  else if c = 1 then some .one
  else if c = 2 then some .hdr
  else if c = 3 then some .gap
  else if c = 4 then some .gap2
  else none

/-- The symbol whose canonical Pair under the constants ROM is exactly `p`, if one is (R72). -/
def symOfPair (rom : TimingRom) (p : Pair) : Option Sym :=
  [Sym.zero, .one, .hdr, .gap, .gap2].find? fun y => symPair rom y == p

/-- `PAIR32(m, s) = {m[15:0], s[15:0]}`, notation for canonical Pairs (R71). -/
def pair32 (p : Pair) : BitVec 32 :=
  BitVec.ofNat 16 p.mark ++ BitVec.ofNat 16 p.space

end Machine

end Sys2Proof
end

