-- ==== Sys2Proof/Machine/State.lean ====
section
/-! DEFINITION. The state of the block (R22, R32 to R36, R40), the reasons a step can stop, and the state after reset (R170). -/

namespace Sys2Proof.Machine

/-- A record buffer (R50 (a)): address and byte pairs, addresses strictly rising, no entry equal to what an unlisted address
reads as. Its operations and `Memory.wf` stand in Machine/Ops.lean. -/
abbrev Memory := List Host.Cell

/-- Why the machine stops with a fault. The block itself raises none (R150): both stand for situations the spec says never
arise. -/
inductive Fault where
  /-- Raised by a step whose unit's schedule index points beyond its schedule ROM. R39 says the index never does, so the spec
  gives no effect; safe. -/
  | scheduleOverrun (u : UnitId)
  /-- Raised by `E.BIT a, b` and `D.BIT a, b` where `a` is no record byte address 0..15 or `b` no bit number 0..7. R54 says no
  such address is ever formed; safe. -/
  | noSuchRecordBit (a b : Nat)
  deriving DecidableEq, Repr

/-- Why the machine refuses. -/
inductive Refusal where
  /-- Raised by exec for an instruction that has no meaning yet (none is left); safe. -/
  | notModelled (mnemonic : String)
  /-- Raised by ENCODE and DECODE when their unit is busy: "a command to a unit with busy = 1 is refused (the model gives it no
  step and records a refusal)" (R176); safe. -/
  | unitBusy (u : UnitId)
  /-- Raised by a step whose fetched word is no instruction, among them the reserved command `CMD = 11` (R89, R90, R152), and by
  BYTES on an operand that is no block address (R89); safe. -/
  | rejected (why : Reject)
  deriving DecidableEq, Repr

/-- The state of the block. INVENTORY.md lists each field with its rule; the last two are the model's own. -/
structure State where
  /-- The constants ROM (R22), which no operation writes. -/
  rom : TimingRom
  /-- `SINK.carrier` in Hz, `none` being UNSET (R32). -/
  sinkCarrier : Option Nat
  /-- `SINK.train` (R32). -/
  sinkTrain : Train
  /-- `SRC.train` (R33). -/
  srcTrain : Train
  /-- `SRC.cur` (R33). -/
  srcCur : Nat
  /-- `ENC.busy` (R34). -/
  encBusy : Bool
  /-- `ENC.rec[0..15]` (R34). -/
  encRec : Memory
  /-- `ENC.upc`, 4 bits (R34, R39). -/
  encUpc : BitVec 4
  /-- `ENC.k`, 0..31 (R34). -/
  encK : BitVec 5
  /-- `DEC.busy` (R35). -/
  decBusy : Bool
  /-- `DEC.acc[0..15]` (R35). -/
  decAcc : Memory
  /-- `DEC.upc`, 4 bits (R35, R39). -/
  decUpc : BitVec 4
  /-- `DEC.k`, 0..31 (R35). -/
  decK : BitVec 5
  /-- `CMD` (R40, R90). -/
  cmd : BitVec 2
  /-- `REC_IN` (R40). -/
  recIn : RecordBits
  /-- `TRAIN_IN` (R40). -/
  trainIn : Train
  /-- `REPLY` of ENCODE: `true` is done, `false` none pending (R40). A port, no register: a reply stands on it in the state that ends
  its transaction and in none after (R36, R37). Log entry 2. -/
  encReply : Bool
  /-- `REPLY` of DECODE, a port like `encReply`: `none` none pending; `some none` the reply none (presence bit 0, its 128 bits meaningless and so not
  held); `some (some r)` the reply some with its 128 bits (R36, R40). -/
  decReply : Option (Option RecordBits)
  /-- The sink connection of R40: the Pair that the sink's append operation (R157) is asked to append outside an ENCODE, if any; any
  Pair, in the sink's own format (R31, R71). Log entry 12. -/
  wire : Option Pair
  /-- The model's own: which unit moves at each of the next steps in which both are busy (R60). Log entry 11. -/
  sched : List UnitId
  /-- The model's own: a reset is requested (R170). Log entry 10. -/
  resetReq : Bool
  deriving DecidableEq, Repr

/-- The machine right after reset (R170). `srcTrain`, `srcCur`, `encRec`, `encUpc`, `encK`, `decAcc`, `decUpc`, `decK`, `cmd`,
`recIn`, `trainIn` and `wire` have no reset value in the spec; log entry 9 names the ones chosen here. -/
def State.reset : State where
  rom := .spec
  sinkCarrier := none
  sinkTrain := []
  srcTrain := []
  srcCur := 0
  encBusy := false
  encRec := []
  encUpc := 0
  encK := 0
  decBusy := false
  decAcc := []
  decUpc := 0
  decK := 0
  cmd := 0
  recIn := 0
  trainIn := []
  encReply := false
  decReply := none
  wire := none
  sched := []
  resetReq := false

end Sys2Proof.Machine
end

