-- ==== Sys2Proof/Machine/Ops.lean ====
section
/-! DEFINITION. The named operations over the record buffers and the state: MemRead and MemWrite, latching and packing a record,
EMIT, SETCARRIER, the schedule index, the start and end of a transaction, and reset. The block has no exception entry and no
return from one (R150, R155, R156), so none stands here. -/

namespace Sys2Proof.Machine

/-- What an address of a record buffer that is not listed reads as. Log entry 8. -/
def Memory.unlisted : Byte := 0

/-- `MemRead(a, 1)` (R15, R53). -/
def Memory.read : Memory → Nat → Byte
  | [], _ => Memory.unlisted
  | (b, v) :: rest, a => if a = b then v else Memory.read rest a

/-- `MemWrite(a, 1, v)` (R15, R53), keeping the canonical form. -/
def Memory.write : Memory → Nat → Byte → Memory
  | [], a, v => if v = Memory.unlisted then [] else [(a, v)]
  | (b, w) :: rest, a, v =>
    if a < b then if v = Memory.unlisted then (b, w) :: rest else (a, v) :: (b, w) :: rest
    else if a = b then if v = Memory.unlisted then rest else (a, v) :: rest
    else (b, w) :: Memory.write rest a v

/-- The canonical form from address `lo` on: addresses strictly rising from at least `lo` and below 16, no entry equal to what an
unlisted address reads as. -/
def Memory.wfFrom : Nat → Memory → Bool
  | _, [] => true
  | lo, (a, v) :: rest => decide (lo ≤ a) && decide (a < 16) && decide (v ≠ Memory.unlisted) && Memory.wfFrom (a + 1) rest

/-- The canonical form of a record buffer. -/
def Memory.wf (mem : Memory) : Bool := Memory.wfFrom 0 mem

/-- Bit `j` of the buffer, at linear bit address `j = 8a + b` (R15). -/
def Memory.readBit (mem : Memory) (j : Nat) : Bool :=
  (mem.read (j / 8)).getLsbD (j % 8)

/-- The bit write `mem[a][b] <- v` of R124, a read and a write of one byte (R53). -/
def Memory.writeBit (mem : Memory) (a b : Nat) (v : Bool) : Memory :=
  mem.write a (withBit (mem.read a) b v)

/-- `for a in 0..15: ENC.rec[a] <- REC_IN[8a+7:8a]` (R100). All 16 bytes are written, so what the buffer held before is gone. -/
def Memory.latch (r : RecordBits) : Memory :=
  (List.range 16).foldl (fun m a => m.write a (recByte r a)) []

/-- The 128 record bits of a buffer, byte `a` at bits `[8a+7:8a]` (R40). -/
def Memory.pack (mem : Memory) : RecordBits :=
  BitVec.ofFnLE fun j : Fin 128 => mem.readBit j

/-- `EMIT(p)`: append `p` at the end of the sink's train (R16, R32). -/
def State.emit (s : State) (p : Pair) : State :=
  { s with sinkTrain := s.sinkTrain ++ [p] }

/-- `EMIT` of a symbol's canonical Pair. -/
def State.emitSym (s : State) (y : Sym) : State :=
  s.emit (symPair s.rom y)

/-- `SETCARRIER(f)` (R16, R32). -/
def State.setCarrier (s : State) (f : Nat) : State :=
  { s with sinkCarrier := some f }

/-- `ENC.k <- k` (R103). -/
def State.setEncK (s : State) (k : Nat) : State :=
  { s with encK := BitVec.ofNat 5 k }

/-- `DEC.k <- k` (R125). -/
def State.setDecK (s : State) (k : Nat) : State :=
  { s with decK := BitVec.ofNat 5 k }

/-- `DEC.acc[a][b] <- v` (R124). -/
def State.setAccBit (s : State) (a b : Nat) (v : Bool) : State :=
  { s with decAcc := s.decAcc.writeBit a b v }

/-- `SRC.cur <- SRC.cur + 1` (R121). -/
def State.advanceCur (s : State) : State :=
  { s with srcCur := s.srcCur + 1 }

/-- `ENC.upc <- ENC.upc + 1`, after a micro-operation completes (R39, R100). -/
def State.encAdvance (s : State) : State :=
  { s with encUpc := s.encUpc + 1 }

/-- `DEC.upc <- DEC.upc + 1`, after a micro-operation completes without failure (R39, R120). -/
def State.decAdvance (s : State) : State :=
  { s with decUpc := s.decUpc + 1 }

/-- The two REPLY ports fall back to none pending. A reply is delivered as the transaction's result and not kept after it (R36, R37),
so every step does this first: a reply shows in the state that ends its transaction and in no state after it. Log entry 2. -/
def State.takeReplies (s : State) : State :=
  { s with encReply := false, decReply := none }

/-- The start of an ENCODE transaction: busy, the record latched by value (R55), the sink's train emptied (R32), the schedule
index 0 (R100). -/
def State.startEncode (s : State) : State :=
  { s with
    encBusy := true
    encRec := Memory.latch s.recIn
    sinkTrain := []
    encUpc := 0 }

/-- The end of an ENCODE transaction: not busy, the reply done (R100). -/
def State.endEncode (s : State) : State :=
  { s with encBusy := false, encReply := true }

/-- The start of a DECODE transaction: busy, the train taken as it is (R33), cursor and schedule index 0 (R120). -/
def State.startDecode (s : State) : State :=
  { s with
    decBusy := true
    srcTrain := s.trainIn
    srcCur := 0
    decUpc := 0 }

/-- The end of a DECODE transaction with a reply: not busy, the reply delivered (R120). -/
def State.endDecode (s : State) (reply : Option RecordBits) : State :=
  { s with decBusy := false, decReply := some reply }

/-- A reset, at any time (R170): every element takes its reset value, the ROM keeps its own (R22), and the two operand inputs
stay what the host drives (log entry 10). A running transaction is abandoned and no reply is delivered. -/
def State.applyReset (s : State) : State :=
  { State.reset with rom := s.rom, recIn := s.recIn, trainIn := s.trainIn }

end Sys2Proof.Machine
end

