-- ==== Sys2Proof/Machine/Flags.lean ====
section
/-! DEFINITION. The block's only flag-like value (R37): the transient Boolean `ok` that EXPECT returns, how the micro-operations of
the decoder combine it (R17), and what a micro-operation's `ok` does to the transaction (R120, R133). -/

namespace Sys2Proof.Machine

/-- A sub-step of the decoder: its transient `ok` and the state after it. -/
abbrev Checked := Bool × State

/-- The Boolean of `EXPECT(p)` under matcher `m`: the Pair at the cursor exists and matches (R121). On an exhausted train `m` is
not called. -/
def State.sees (s : State) (m : Matcher) (p : Pair) : Bool :=
  match s.srcTrain[s.srcCur]? with
  | some q => m q p
  | none => false

/-- `EXPECT(p)` (R121): advance the cursor on a match, change nothing otherwise. -/
def State.expect (s : State) (m : Matcher) (p : Pair) : Checked :=
  if s.sees m p then (true, s.advanceCur) else (false, s)

/-- `EXPECT(p1) && EXPECT(p2) && ...`: left to right, stopping at the first false (R17, R127). -/
def State.expectAll (s : State) (m : Matcher) : List Pair → Checked
  | [] => (true, s)
  | p :: ps =>
    match s.expect m p with
    | (true, s') => s'.expectAll m ps
    | (false, s') => (false, s')

/-- What `ok` does to the transaction: on true the schedule index advances (R39), on false the decode ends with the reply none
(R120, R133). -/
def finishUop (r : Checked) : State :=
  if r.1 then r.2.decAdvance else r.2.endDecode none

/-- The same for a sub-step, which does not advance the schedule index (R94, R124). -/
def finishBit (r : Checked) : State :=
  if r.1 then r.2 else r.2.endDecode none

end Sys2Proof.Machine
end

