-- ==== Sys2Proof/Machine/Decoder.lean ====
section
/-! DEFINITION. The meanings of the DECODE command, of every micro-operation of the decoder and of D.BIT (spec/41_decoder.md). Each
is written once for every matcher `m` (run…), since the step is defined for every such function (R122), and once as the
instruction's meaning (exec…), under MATCH. -/

namespace Sys2Proof.Machine

/-- `DECODE` (R120): start the transaction; the loop of R120 is the steps that follow (log entry 7). A command to the busy unit is
refused (R176). -/
def execDecode (s : State) : Host.Outcome State Fault Refusal :=
  if s.decBusy then .refused (.unitBusy .dec) else .next s.startDecode

/-- `D.BIT a, b` without its address check (R124): the ONE attempt, then the ZERO attempt on the same Pair. -/
def State.takeBit (s : State) (m : Matcher) (a b : Nat) : Checked :=
  match s.expect m (symPair s.rom .one) with
  | (true, s') => (true, s'.setAccBit a b true)
  | (false, s') =>
    match s'.expect m (symPair s'.rom .zero) with
    | (true, s'') => (true, s''.setAccBit a b false)
    | (false, s'') => (false, s'')

/-- The sub-steps `ks` of `BYTES lo` in the decoder, while `ok` (R125). -/
def decBlockFrom (m : Matcher) (lo : BitVec 5) : List Nat → State → Checked
  | [], s => (true, s)
  | k :: ks, s =>
    match (s.setDecK k).takeBit m (blockByte lo k) (blockBit k) with
    | (true, s') => decBlockFrom m lo ks s'
    | (false, s') => (false, s')

/-- `for k in 0..31 while ok` (R125). -/
def decBlock (m : Matcher) (lo : BitVec 5) (s : State) : Checked :=
  decBlockFrom m lo (List.range 32) s

/-- `HDR` under `m` (R123). -/
def runDecHdr (m : Matcher) (s : State) : Host.Outcome State Fault Refusal :=
  .next (finishUop (s.expect m (symPair s.rom .hdr)))

/-- `BYTES lo` under `m` (R125); an operand that is no block address is refused (R89). -/
def runDecBytes (m : Matcher) (lo : BitVec 5) (s : State) : Host.Outcome State Fault Refusal :=
  if blockLegal lo then .next (finishUop (decBlock m lo s)) else .refused (.rejected .illegalArg)

/-- `FOOTER` under `m` (R127): each footer bit a direct expectation of its symbol. -/
def runDecFooter (m : Matcher) (s : State) : Host.Outcome State Fault Refusal :=
  .next (finishUop (s.expectAll m ((footerSyms s.rom).map (symPair s.rom))))

/-- `GAP` under `m` (R128). -/
def runDecGap (m : Matcher) (s : State) : Host.Outcome State Fault Refusal :=
  .next (finishUop (s.expect m (symPair s.rom .gap)))

/-- `GAP2` under `m` (R129). -/
def runDecGap2 (m : Matcher) (s : State) : Host.Outcome State Fault Refusal :=
  .next (finishUop (s.expect m (symPair s.rom .gap2)))

/-- `D.BIT a, b` under `m` (R124); a byte or bit that does not exist faults (R54). -/
def runDBit (m : Matcher) (a b : Nat) (s : State) : Host.Outcome State Fault Refusal :=
  if recordBitExists a b then .next (finishBit (s.takeBit m a b)) else .fault (.noSuchRecordBit a b)

/-- `HDR` (R123). -/
def execDecHdr (s : State) : Host.Outcome State Fault Refusal :=
  runDecHdr Config.matchFn s

/-- `BYTES lo` (R125). -/
def execDecBytes (lo : BitVec 5) (s : State) : Host.Outcome State Fault Refusal :=
  runDecBytes Config.matchFn lo s

/-- `FOOTER` (R127). -/
def execDecFooter (s : State) : Host.Outcome State Fault Refusal :=
  runDecFooter Config.matchFn s

/-- `GAP` (R128). -/
def execDecGap (s : State) : Host.Outcome State Fault Refusal :=
  runDecGap Config.matchFn s

/-- `GAP2` (R129). -/
def execDecGap2 (s : State) : Host.Outcome State Fault Refusal :=
  runDecGap2 Config.matchFn s

/-- `END` (R130): the reply `some(DEC.acc[0..15])`; it examines no Pair and the schedule index does not advance (R39). -/
def execDecEnd (s : State) : Host.Outcome State Fault Refusal :=
  .next (s.endDecode (some s.decAcc.pack))

/-- `D.BIT a, b` (R124). -/
def execDBit (a b : Nat) (s : State) : Host.Outcome State Fault Refusal :=
  runDBit Config.matchFn a b s

end Sys2Proof.Machine
end

