-- ==== Sys2Proof/Machine/Encoder.lean ====
section
/-! DEFINITION. The meanings of the ENCODE command, of every micro-operation of the encoder and of E.BIT (spec/40_encoder.md). -/

namespace Sys2Proof.Machine

/-- `ENCODE` (R100): start the transaction; the loop of R100 is the steps that follow, one micro-operation each (log entry 7). A
command to the busy unit is refused (R176). -/
def execEncode (s : State) : Host.Outcome State Fault Refusal :=
  if s.encBusy then .refused (.unitBusy .enc) else .next s.startEncode

/-- `CARRIER` (R101). -/
def execEncCarrier (s : State) : Host.Outcome State Fault Refusal :=
  .next (s.setCarrier s.rom.carrierHz).encAdvance

/-- `HDR` (R102). -/
def execEncHdr (s : State) : Host.Outcome State Fault Refusal :=
  .next (s.emitSym .hdr).encAdvance

/-- `E.BIT a, b` without its address check: emit `bitsym(ENC.rec[a][b])` (R104). -/
def State.emitBit (s : State) (a b : Nat) : State :=
  s.emitSym (bitSym ((s.encRec.read a).getLsbD b))

/-- Sub-step `k` of `BYTES lo` in the encoder (R103). -/
def encBlockStep (lo : BitVec 5) (s : State) (k : Nat) : State :=
  (s.setEncK k).emitBit (blockByte lo k) (blockBit k)

/-- The 32 sub-steps of `BYTES lo` in the encoder (R103). -/
def encBlock (lo : BitVec 5) (s : State) : State :=
  (List.range 32).foldl (encBlockStep lo) s

/-- `BYTES lo` (R103); an operand that is no block address is refused (R89). -/
def execEncBytes (lo : BitVec 5) (s : State) : Host.Outcome State Fault Refusal :=
  if blockLegal lo then .next (encBlock lo s).encAdvance else .refused (.rejected .illegalArg)

/-- `FOOTER` (R105): the footer symbols in order. -/
def execEncFooter (s : State) : Host.Outcome State Fault Refusal :=
  .next ((footerSyms s.rom).foldl State.emitSym s).encAdvance

/-- `GAP` (R106). -/
def execEncGap (s : State) : Host.Outcome State Fault Refusal :=
  .next (s.emitSym .gap).encAdvance

/-- `GAP2` (R107). -/
def execEncGap2 (s : State) : Host.Outcome State Fault Refusal :=
  .next (s.emitSym .gap2).encAdvance

/-- `END` (R108): leave the loop of R100, whose last two actions follow; the schedule index does not advance (R39). -/
def execEncEnd (s : State) : Host.Outcome State Fault Refusal :=
  .next s.endEncode

/-- `E.BIT a, b` (R104); a byte or bit that does not exist faults (R54). -/
def execEBit (a b : Nat) (s : State) : Host.Outcome State Fault Refusal :=
  if recordBitExists a b then .next (s.emitBit a b) else .fault (.noSuchRecordBit a b)

end Sys2Proof.Machine
end

