-- ==== Sys2Proof/Machine/Wire.lean ====
section
/-! DEFINITION. The meanings of the five symbol rows: a symbol goes on the wire by EMIT of its canonical Pair, the sink's append
operation (R16, R72, R74 to R78, R157; log entry 12). -/

namespace Sys2Proof.Machine

/-- ZERO (R76). -/
def execSymZero (s : State) : Host.Outcome State Fault Refusal :=
  .next (s.emitSym .zero)

/-- ONE (R75). -/
def execSymOne (s : State) : Host.Outcome State Fault Refusal :=
  .next (s.emitSym .one)

/-- HDR (R74). -/
def execSymHdr (s : State) : Host.Outcome State Fault Refusal :=
  .next (s.emitSym .hdr)

/-- GAP (R77). -/
def execSymGap (s : State) : Host.Outcome State Fault Refusal :=
  .next (s.emitSym .gap)

/-- GAP2 (R78). -/
def execSymGap2 (s : State) : Host.Outcome State Fault Refusal :=
  .next (s.emitSym .gap2)

end Sys2Proof.Machine
end

