-- ==== Sys2Proof/Machine/Dispatch.lean ====
section
/-! DEFINITION. The meaning of every instruction: one arm per constructor of Instr. -/

namespace Sys2Proof.Machine

def exec (i : Instr) (s : State) : Host.Outcome State Fault Refusal :=
  match i with
  -- host commands
  | .encode => Sys2Proof.Machine.execEncode s
  | .decode => Sys2Proof.Machine.execDecode s
  -- micro-operations of the encoder
  | .encCarrier => Sys2Proof.Machine.execEncCarrier s
  | .encHdr => Sys2Proof.Machine.execEncHdr s
  | .encBytes lo => Sys2Proof.Machine.execEncBytes lo s
  | .encFooter => Sys2Proof.Machine.execEncFooter s
  | .encGap => Sys2Proof.Machine.execEncGap s
  | .encGap2 => Sys2Proof.Machine.execEncGap2 s
  | .encEnd => Sys2Proof.Machine.execEncEnd s
  -- micro-operations of the decoder
  | .decHdr => Sys2Proof.Machine.execDecHdr s
  | .decBytes lo => Sys2Proof.Machine.execDecBytes lo s
  | .decFooter => Sys2Proof.Machine.execDecFooter s
  | .decGap => Sys2Proof.Machine.execDecGap s
  | .decGap2 => Sys2Proof.Machine.execDecGap2 s
  | .decEnd => Sys2Proof.Machine.execDecEnd s
  -- the sub-steps that have no word of their own
  | .eBit a b => Sys2Proof.Machine.execEBit a b s
  | .dBit a b => Sys2Proof.Machine.execDBit a b s
  -- the symbols on the wire
  | .symZero => Sys2Proof.Machine.execSymZero s
  | .symOne => Sys2Proof.Machine.execSymOne s
  | .symHdr => Sys2Proof.Machine.execSymHdr s
  | .symGap => Sys2Proof.Machine.execSymGap s
  | .symGap2 => Sys2Proof.Machine.execSymGap2 s

end Sys2Proof.Machine
end

