-- ==== Sys2Proof/Machine/Schedule.lean ====
section
/-! DEFINITION. The two schedule ROMs (R86, R87), which agent moves next, the word it fetches, and one cycle of the machine, written
over the dispatch it runs so that the step and the same step under another matcher are one text. -/

namespace Sys2Proof.Machine

/-- ENC_ROM (R86). -/
def encRom : List (BitVec 8) :=
  [0x00, 0x20, 0x40, 0x60, 0x80, 0x44, 0xA0, 0x20, 0x48, 0x60, 0x80, 0x4C, 0xA0, 0xC0]

/-- DEC_ROM (R87). -/
def decRom : List (BitVec 8) :=
  [0x20, 0x40, 0x60, 0x80, 0x44, 0xA0, 0x20, 0x48, 0x60, 0x80, 0x4C, 0xA0, 0xC0]

/-- The schedule ROM of a unit; ROM, so no field of State (R63). -/
def unitRom : UnitId → List (BitVec 8)
  | .enc => encRom
  | .dec => decRom

/-- The schedule index of a unit (R39). -/
def State.upc (s : State) : UnitId → BitVec 4
  | .enc => s.encUpc
  | .dec => s.decUpc

/-- Whether a unit runs a transaction (R34, R35). -/
def State.busy (s : State) : UnitId → Bool
  | .enc => s.encBusy
  | .dec => s.decBusy

/-- The word at a unit's schedule index, if its ROM has one. -/
def State.unitWord (s : State) (u : UnitId) : Option Code :=
  ((unitRom u)[(s.upc u).toNat]?).map (Code.uop u)

/-- What moves in a step. -/
inductive Mover where
  | reset
  | host
  | wire
  | unit (u : UnitId)
  | idle
  deriving DecidableEq, Repr

/-- What moves next. A reset comes first; then a pending command (a host may start a transaction on one unit while the other runs,
R159, R176); then an append waiting at the sink connection, unless an ENCODE owns the sink (R178); then a busy unit, the schedule input
deciding where both are busy (R60). Log entry 11. -/
def State.nextMover (s : State) : Mover :=
  if s.resetReq then .reset
  else if s.cmd ≠ 0 then .host
  else if s.wire.isSome && !s.encBusy then .wire
  else
    match s.encBusy, s.decBusy with
    | true, true => .unit (s.sched.headD .enc)
    | true, false => .unit .enc
    | false, true => .unit .dec
    | false, false => .idle

/-- What a step fetches. -/
inductive Fetch where
  | resets
  | idles
  | word (c : Code)
  | append (p : Pair)
  | overrun (u : UnitId)
  deriving DecidableEq, Repr

/-- The word the next mover executes, or the Pair the sink connection appends. -/
def State.fetch (s : State) : Fetch :=
  match s.nextMover with
  | .reset => .resets
  | .idle => .idles
  | .host => .word (.cmd s.cmd)
  | .wire =>
    match s.wire with
    | some p => .append p
    | none => .idles
  | .unit u =>
    match s.unitWord u with
    | some c => .word c
    | none => .overrun u

/-- What the fetch consumes: a reply delivered by the step before is gone (R36), CMD is sampled at the start of a transaction (R40), a
Pair leaves the sink connection, and the schedule input is read once where both units are busy. -/
def State.issue (s : State) : State :=
  match s.nextMover with
  | .reset => s.takeReplies
  | .idle => s.takeReplies
  | .host => State.takeReplies { s with cmd := 0 }
  | .wire => State.takeReplies { s with wire := none }
  | .unit _ => if s.encBusy && s.decBusy then State.takeReplies { s with sched := s.sched.tail } else s.takeReplies

/-- Decode a word and run it with the dispatch `ex`. -/
def runWord (ex : Instr → State → Host.Outcome State Fault Refusal) (c : Code) (s : State) :
    Host.Outcome State Fault Refusal :=
  match decode c with
  | .ok i => ex i s
  | .error why => .refused (.rejected why)

/-- The append of a Pair at the sink connection (R157): a canonical symbol's Pair is that symbol's instruction, and any other Pair, which
no row of the opcode table stands for, is appended as it is (R57, R71). -/
def appendPair (ex : Instr → State → Host.Outcome State Fault Refusal) (p : Pair) (s : State) :
    Host.Outcome State Fault Refusal :=
  match symOfPair s.rom p with
  | some y => ex (symInstr y) s
  | none => .next (s.emit p)

/-- One cycle of the machine with the dispatch `ex`. -/
def cycle (ex : Instr → State → Host.Outcome State Fault Refusal) (s : State) : Host.Outcome State Fault Refusal :=
  match s.fetch with
  | .resets => .next s.applyReset
  | .idles => .next s.issue
  | .word c => runWord ex c s.issue
  | .append p => appendPair ex p s.issue
  | .overrun u => .fault (.scheduleOverrun u)

/-- One move of one unit, whatever the other agents do: the micro-operation at its schedule index. -/
def unitCycle (ex : Instr → State → Host.Outcome State Fault Refusal) (u : UnitId) (s : State) :
    Host.Outcome State Fault Refusal :=
  match s.unitWord u with
  | some c => runWord ex c s
  | none => .fault (.scheduleOverrun u)

/-- The dispatch under another matcher `m`: only the operations that issue an EXPECT differ (R121, R122). -/
def execUnder (m : Matcher) (i : Instr) (s : State) : Host.Outcome State Fault Refusal :=
  match i with
  | .decHdr => runDecHdr m s
  | .decBytes lo => runDecBytes m lo s
  | .decFooter => runDecFooter m s
  | .decGap => runDecGap m s
  | .decGap2 => runDecGap2 m s
  | .dBit a b => runDBit m a b s
  | .encode => exec .encode s
  | .decode => exec .decode s
  | .encCarrier => exec .encCarrier s
  | .encHdr => exec .encHdr s
  | .encBytes lo => exec (.encBytes lo) s
  | .encFooter => exec .encFooter s
  | .encGap => exec .encGap s
  | .encGap2 => exec .encGap2 s
  | .encEnd => exec .encEnd s
  | .decEnd => exec .decEnd s
  | .eBit a b => exec (.eBit a b) s
  | .symZero => exec .symZero s
  | .symOne => exec .symOne s
  | .symHdr => exec .symHdr s
  | .symGap => exec .symGap s
  | .symGap2 => exec .symGap2 s

/-- `n` moves by `move`, stopping at the first fault or refusal. -/
def runMoves (move : State → Host.Outcome State Fault Refusal) : Nat → State → Host.Outcome State Fault Refusal
  | 0, s => .next s
  | n + 1, s =>
    match move s with
    | .next s' => runMoves move n s'
    | .fault f => .fault f
    | .refused r => .refused r

/-- The first slot of unit `u`'s schedule ROM that holds the word `w`, if one does. -/
def slotOf (u : UnitId) (w : BitVec 8) : Option Nat :=
  (unitRom u).findIdx? (· == w)

/-- The unit whose micro-operation the machine would fetch next: DEC if only DEC is busy, else ENC. -/
def State.fetchUnit (s : State) : UnitId :=
  if s.decBusy && !s.encBusy then .dec else .enc

/-- Place a word where the next step fetches it: a command in CMD; a symbol's Pair at the sink connection, with no ENCODE running; a
micro-operation by pointing its unit, busy, at a ROM slot that holds it (a word that stands in no slot cannot be placed, R89,
nor one that writes down no symbol, R71). -/
def State.placeCode (s : State) (c : Code) : State :=
  match c with
  | .cmd c => { s with resetReq := false, cmd := c }
  | .wire w =>
    match symOfWord w with
    | some y => { s with resetReq := false, cmd := 0, encBusy := false, wire := some (symPair s.rom y) }
    | none => s
  | .uop .enc w =>
    match slotOf .enc w with
    | some n =>
      { s with
        resetReq := false
        cmd := 0
        encBusy := true
        encUpc := BitVec.ofNat 4 n
        sched := if s.decBusy then .enc :: s.sched else s.sched }
    | none => s
  | .uop .dec w =>
    match slotOf .dec w with
    | some n =>
      { s with
        resetReq := false
        cmd := 0
        wire := if s.encBusy then s.wire else none
        decBusy := true
        decUpc := BitVec.ofNat 4 n
        sched := if s.encBusy then .dec :: s.sched else s.sched }
    | none => s

end Sys2Proof.Machine
end

