-- ==== Sys2Proof/Machine/Step.lean ====
section
/-! DEFINITION. The step of the machine, the same step under another matcher, one move of each unit, and how a word is placed where
the step fetches it. Everything these call stands in Machine/Schedule.lean. -/

namespace Sys2Proof.Machine

/-- One step: the next mover's word is fetched, decoded and executed (R20, R60). -/
def step (s : State) : Host.Outcome State Fault Refusal :=
  cycle exec s

/-- The step under another matcher (R122). -/
def stepUnder (m : Matcher) (s : State) : Host.Outcome State Fault Refusal :=
  cycle (execUnder m) s

/-- One move of unit `u` under a matcher. -/
def unitStep (m : Matcher) (u : UnitId) (s : State) : Host.Outcome State Fault Refusal :=
  unitCycle (execUnder m) u s

/-- The bits of one table row placed where the step fetches its next word. -/
def State.withFetchWord (s : State) (nbits w : Nat) : State :=
  match tableCode s.fetchUnit nbits w with
  | some c => s.placeCode c
  | none => s

end Sys2Proof.Machine
end

