-- ==== Sys2Proof/Machine/Fields.lean ====
section
/-! DEFINITION. The field view of a record (R27): the widths of the named fields and their accessors over any layout, the offsets
being the open parameter FIELD_LAYOUT (R13). Neither unit uses it (R27, R111). -/

namespace Sys2Proof.Machine

/-- The widths of the named fields, in bits (R27). -/
def fieldWidth : Field → Nat
  | .mode => 3
  | .power => 1
  | .fanSpeed => 2
  | .swingAuto => 1
  | .temperature => 4
  | .turbo => 1
  | .light => 1
  | .ionFilter => 1
  | .xFan => 1
  | .verticalSwing => 4
  | .horizontalSwing => 1
  | .checksum1 => 4
  | .checksum2 => 4
  | .quiet => 1
  | .fan => 3

/-- Read field `f`: the bits of the raw view at its offset, zero-extended (R14, R27). -/
def getField (layout : FieldLayout) (f : Field) (r : RecordBits) : BitVec (fieldWidth f) :=
  r.extractLsb' (layout f) (fieldWidth f)

/-- Bit `i` lies in field `f`. -/
def inField (layout : FieldLayout) (f : Field) (i : Nat) : Bool :=
  layout f ≤ i && i < layout f + fieldWidth f

/-- Write field `f`: its bits of the raw view and no other (R27). -/
def setField (layout : FieldLayout) (f : Field) (v : BitVec (fieldWidth f)) (r : RecordBits) : RecordBits :=
  BitVec.ofFnLE fun i : Fin 128 =>
    if inField layout f i then v.getLsbD (i - layout f) else r.getLsbD i

/-- The field view of the hardware, under its own (open) layout. -/
def recordField (f : Field) (r : RecordBits) : BitVec (fieldWidth f) :=
  getField Config.fieldLayout f r

end Sys2Proof.Machine
end

