-- ==== Sys2Proof/Machine/Frame.lean ====
section
/-! DEFINITION. The frame of a record, built as R80 to R84 build it, and its position map (R85), as functions statements compare the
machine with. Neither unit's meaning calls them. -/

namespace Sys2Proof.Machine

/-- The 8 symbols of a byte, least significant bit first (R80). -/
def byteSyms (x : Byte) : List Sym :=
  (List.range 8).map fun b => bitSym (x.getLsbD b)

/-- The 32 symbols of the 4-byte block starting at byte address `lo` (R81). -/
def blockSyms (r : RecordBits) (lo : Nat) : List Sym :=
  (List.range 4).flatMap fun a => byteSyms (recByte r (lo + a))

/-- The 70 symbols of half `h` (R83). -/
def halfSyms (rom : TimingRom) (r : RecordBits) (h : Nat) : List Sym :=
  [Sym.hdr] ++ blockSyms r (8 * h) ++ footerSyms rom ++ [Sym.gap] ++ blockSyms r (8 * h + 4) ++ [Sym.gap2]

/-- The symbols of `frame(r)`: half 0 followed by half 1 (R84). -/
def frameSyms (rom : TimingRom) (r : RecordBits) : List Sym :=
  halfSyms rom r 0 ++ halfSyms rom r 1

/-- `frame(r)` as a train of canonical Pairs. -/
def frame (rom : TimingRom) (r : RecordBits) : Train :=
  (frameSyms rom r).map (symPair rom)

/-- What stands at a position of the frame: a framing symbol, or data bit `j` of the record. -/
inductive Slot where
  | framing (y : Sym)
  | data (j : Nat)
  deriving DecidableEq, Repr

/-- The position map of R85 within one half: `h` the half, `i` the index from its header on. The footer symbols are those of the
ROM's footer pattern, ZERO, ONE, ZERO by its default (R22, R82). -/
def slotInHalf (rom : TimingRom) (h i : Nat) : Slot :=
  if i = 0 then .framing .hdr
  else if i ≤ 32 then .data (64 * h + (i - 1))
  else if i ≤ 35 then .framing (bitSym (rom.footerPattern.getLsbD (i - 33)))
  else if i = 36 then .framing .gap
  else if i ≤ 68 then .data (64 * h + 32 + (i - 37))
  else .framing .gap2

/-- The position map of R85. -/
def slotAt (rom : TimingRom) (i : Nat) : Slot :=
  slotInHalf rom (i / 70) (i % 70)

/-- The symbol at frame index `i`, by the position map. -/
def Slot.sym (r : RecordBits) : Slot → Sym
  | .framing y => y
  | .data j => bitSym (recBit r j)

/-- The frame index of data bit `j` (R85). -/
def dataIndex (j : Nat) : Nat :=
  1 + j + (if 32 ≤ j then 4 else 0) + (if 64 ≤ j then 2 else 0) + (if 96 ≤ j then 4 else 0)

/-- Whether a received Pair passes at a position under `m`: at a data position ONE or ZERO (R124), elsewhere its framing symbol
(R123, R127 to R129). -/
def Slot.passes (m : Matcher) (rom : TimingRom) (q : Pair) : Slot → Bool
  | .framing y => m q (symPair rom y)
  | .data _ => m q (symPair rom .one) || m q (symPair rom .zero)

/-- The reply a DECODE owes for a train, position by position: `some r` exactly when each of the first 140 Pairs exists and passes,
bit `j` of `r` being whether the Pair of data bit `j` matches ONE (R120 to R133). -/
def decodeReply (m : Matcher) (rom : TimingRom) (train : Train) : Option RecordBits :=
  if (List.range 140).all fun i =>
      match train[i]? with
      | some q => (slotAt rom i).passes m rom q
      | none => false
  then
    some (BitVec.ofFnLE fun j : Fin 128 =>
      match train[dataIndex j]? with
      | some q => m q (symPair rom .one)
      | none => false)
  else none

/-- The total duration of a train: the sum of all marks and spaces (R113). -/
def duration (t : Train) : Nat :=
  (t.map fun p => p.mark + p.space).sum

/-- The number of 1 bits among the 128 bits of a record (R113). -/
def ones (r : RecordBits) : Nat :=
  ((List.range 128).filter fun j => r.getLsbD j).length

end Sys2Proof.Machine
end

