-- ==== Sys2Proof/Machine/MatchCalls.lean ====
section
/-! DEFINITION. How many times a decode calls MATCH (R141), computed beside the decoder's own steps; no state of the block counts
them. -/

namespace Sys2Proof.Machine

/-- The calls of one EXPECT: one if a Pair stands at the cursor, none on an exhausted train (R121). -/
def State.expectCalls (s : State) : Nat :=
  if s.srcCur < s.srcTrain.length then 1 else 0

/-- The calls of one D.BIT: the ONE attempt, and the ZERO attempt where it fails (R124). -/
def State.bitCalls (s : State) (m : Matcher) : Nat :=
  s.expectCalls + if s.sees m (symPair s.rom .one) then 0 else s.expectCalls

/-- The calls of the sub-steps `ks` of BYTES (R125). -/
def blockCalls (m : Matcher) (lo : BitVec 5) : List Nat → State → Nat
  | [], _ => 0
  | k :: ks, s =>
    s.bitCalls m +
      match (s.setDecK k).takeBit m (blockByte lo k) (blockBit k) with
      | (true, s') => blockCalls m lo ks s'
      | (false, _) => 0

/-- The calls of a chain of expectations (R17, R127). -/
def State.expectAllCalls (s : State) (m : Matcher) : List Pair → Nat
  | [] => 0
  | p :: ps =>
    s.expectCalls +
      match s.expect m p with
      | (true, s') => s'.expectAllCalls m ps
      | (false, _) => 0

/-- The calls of one instruction. -/
def instrCalls (m : Matcher) (i : Instr) (s : State) : Nat :=
  match i with
  | .decHdr => s.expectCalls
  | .decBytes lo => blockCalls m lo (List.range 32) s
  | .decFooter => s.expectAllCalls m ((footerSyms s.rom).map (symPair s.rom))
  | .decGap => s.expectCalls
  | .decGap2 => s.expectCalls
  | .dBit _ _ => s.bitCalls m
  | .decEnd => 0
  | .encode => 0
  | .decode => 0
  | .encCarrier => 0
  | .encHdr => 0
  | .encBytes _ => 0
  | .encFooter => 0
  | .encGap => 0
  | .encGap2 => 0
  | .encEnd => 0
  | .eBit _ _ => 0
  | .symZero => 0
  | .symOne => 0
  | .symHdr => 0
  | .symGap => 0
  | .symGap2 => 0

/-- The calls of the decoder's next `n` moves, from a state in which it runs. -/
def decodeCalls (m : Matcher) : Nat → State → Nat
  | 0, _ => 0
  | n + 1, s =>
    if s.decBusy then
      match s.unitWord .dec with
      | none => 0
      | some c =>
        match decode c with
        | .error _ => 0
        | .ok i =>
          instrCalls m i s +
            match execUnder m i s with
            | .next s' => decodeCalls m n s'
            | .fault _ => 0
            | .refused _ => 0
    else 0

end Sys2Proof.Machine
end

