-- ==== Sys2Proof/Safety.lean ====
section
/-! DEFINITION. The terms claims are made in: the two properties of a conforming MATCH, the invariants of the record buffers, of a
running ENCODE and of a running DECODE, what one unit owns of the state, where a word stands in a schedule ROM, and when a
layout of fields is sound. -/

namespace Sys2Proof.Machine

/-- EXACT: each canonical symbol matches itself (R122). -/
def Exact (m : Matcher) (rom : TimingRom) : Prop :=
  ∀ y : Sym, m (symPair rom y) (symPair rom y) = true

/-- SYMSEP: no canonical symbol matches a different one (R122). -/
def SymSep (m : Matcher) (rom : TimingRom) : Prop :=
  ∀ y z : Sym, y ≠ z → m (symPair rom y) (symPair rom z) = false

/-- The record buffers are in canonical form. -/
def BuffersCanonical (s : State) : Prop :=
  s.encRec.wf = true ∧ s.decAcc.wf = true

/-- How many Pairs of the frame stand before slot `u` of ENC_ROM. -/
def encPairsBefore (u : Nat) : Nat :=
  [0, 0, 1, 33, 36, 37, 69, 70, 71, 103, 106, 107, 139, 140].getD u 140

/-- How many Pairs of the frame stand before slot `u` of DEC_ROM. -/
def decPairsBefore (u : Nat) : Nat :=
  [0, 1, 33, 36, 37, 69, 70, 71, 103, 106, 107, 139, 140].getD u 140

/-- A running ENCODE: its schedule index is at most 13 (R39), the sink holds exactly the Pairs of the latched record's frame that
stand before that slot (R58), and from slot 1 on the carrier is set (R58, R174). -/
def EncodeOnTrack (s : State) : Prop :=
  s.encBusy = true →
    s.encUpc.toNat ≤ 13 ∧
    s.sinkTrain = (frame s.rom s.encRec.pack).take (encPairsBefore s.encUpc.toNat) ∧
    (1 ≤ s.encUpc.toNat → s.sinkCarrier = some s.rom.carrierHz)

/-- A running DECODE under `m`: its schedule index is at most 12 (R39), the cursor stands where that slot begins and within the
train, every Pair before it passed at its position, and every data bit before it is whether its Pair matched ONE (R124). -/
def DecodeOnTrack (m : Matcher) (s : State) : Prop :=
  s.decBusy = true →
    s.decUpc.toNat ≤ 12 ∧
    s.srcCur = decPairsBefore s.decUpc.toNat ∧
    s.srcCur ≤ s.srcTrain.length ∧
    (∀ i q, i < s.srcCur → s.srcTrain[i]? = some q → (slotAt s.rom i).passes m s.rom q = true) ∧
    (∀ j q, j < 128 → dataIndex j < s.srcCur → s.srcTrain[dataIndex j]? = some q →
      s.decAcc.readBit j = m q (symPair s.rom .one))

/-- Nothing from outside waits: no reset, no command, no symbol for the wire. -/
def Quiet (s : State) : Prop :=
  s.resetReq = false ∧ s.cmd = 0 ∧ s.wire = none

/-- The state in which a DECODE of `train` is the next thing to happen: its command pending, both units idle, nothing else
waiting. -/
def DecodeReady (s : State) (train : Train) : Prop :=
  s.resetReq = false ∧ s.cmd = 0b10 ∧ s.wire = none ∧ s.encBusy = false ∧ s.decBusy = false ∧ s.trainIn = train

/-- The state in which an ENCODE of `r` is the next thing to happen. -/
def EncodeReady (s : State) (r : RecordBits) : Prop :=
  s.resetReq = false ∧ s.cmd = 0b01 ∧ s.wire = none ∧ s.encBusy = false ∧ s.decBusy = false ∧ s.recIn = r

/-- Some run of 1 to `n` moves from `s` answers a next state with `P`. -/
def ReachesWithin (move : State → Host.Outcome State Fault Refusal) (n : Nat) (s : State) (P : State → Prop) : Prop :=
  ∃ k u, 1 ≤ k ∧ k ≤ n ∧ runMoves move k s = .next u ∧ P u

/-- Under `m`, within the 14 steps from `s` (the command and at most 13 micro-operations) a state is reached in which DEC is idle
again and delivers the reply `reply`. -/
def DecodesTo (m : Matcher) (s : State) (reply : Option RecordBits) : Prop :=
  ReachesWithin (stepUnder m) 14 s fun u => u.decBusy = false ∧ u.decReply = some reply

/-- What ENC owns but for its reply port: the sink and its own registers, with the record the host drives (R32, R34, R40). -/
def SameEncSide (s t : State) : Prop :=
  s.sinkCarrier = t.sinkCarrier ∧ s.sinkTrain = t.sinkTrain ∧ s.encBusy = t.encBusy ∧ s.encRec = t.encRec ∧
  s.encUpc = t.encUpc ∧ s.encK = t.encK ∧ s.recIn = t.recIn

/-- What DEC owns but for its reply port: the source and its own registers, with the train the host drives (R33, R35, R40). -/
def SameDecSide (s t : State) : Prop :=
  s.srcTrain = t.srcTrain ∧ s.srcCur = t.srcCur ∧ s.decBusy = t.decBusy ∧ s.decAcc = t.decAcc ∧
  s.decUpc = t.decUpc ∧ s.decK = t.decK ∧ s.trainIn = t.trainIn

/-- The word `w` is the micro-operation `i` of unit `u` and stands in exactly the slots `slots` of its schedule ROM. -/
def StandsAt (u : UnitId) (w : BitVec 8) (i : Instr) (slots : List Nat) : Prop :=
  decode (.uop u w) = .ok i ∧ ∀ n, (unitRom u)[n]? = some w ↔ n ∈ slots

/-- A layout places every field inside the 128 bits and no two on a common bit. -/
def LayoutSound (layout : FieldLayout) : Prop :=
  (∀ f, layout f + fieldWidth f ≤ 128) ∧
  ∀ f g i, f ≠ g → inField layout f i = true → inField layout g i = false

end Sys2Proof.Machine
end

