-- ==== Sys2Proof/Certificates/Slice0/Obligations.lean ====
section
/-! DEFINITION. The statements for the provers. OBLIGATIONS.json says of each which rules of spec/ it formalises. -/

open Sys2Proof Sys2Proof.Machine

/-! ### Encodings -/

/-- The decoder reads back every word the encoder writes, with every operand (R88, R90, R72). -/
def Obligations.DecodeInvertsEncode : Prop :=
  ∀ (i : Instr) (c : Code), WellFormed i → encode i = some c → decode c = .ok i

/-- Every word the decoder accepts is the encoder's word of the well-formed instruction it reads: no two words share an
instruction and no reserved word falls through to one. -/
def Obligations.EncodeInvertsDecode : Prop :=
  ∀ (i : Instr) (c : Code), decode c = .ok i → WellFormed i ∧ encode i = some c

/-- The reserved and illegal micro-operation words are refused at decode, no other word is, and neither schedule ROM holds one
(R88, R89). -/
def Obligations.ReservedUopWordsRefused : Prop :=
  (∀ (u : UnitId) (w : BitVec 8),
    (∃ why, decode (.uop u w) = .error why) ↔
      (w.extractLsb' 5 3 = 0b111 ∨
        (w.extractLsb' 5 3 ≠ 0b010 ∧ w.extractLsb' 0 5 ≠ 0) ∨
        (w.extractLsb' 5 3 = 0b010 ∧
          ¬(w.extractLsb' 0 5 = 0 ∨ w.extractLsb' 0 5 = 4 ∨ w.extractLsb' 0 5 = 8 ∨ w.extractLsb' 0 5 = 12)) ∨
        (u = .dec ∧ w.extractLsb' 5 3 = 0b000))) ∧
  ∀ (u : UnitId) (w : BitVec 8), w ∈ unitRom u → ∃ i, decode (.uop u w) = .ok i

/-- The command codes (R90; the codes are the spec's decision D20): NONE starts no transaction and the reserved code is refused. That
an idle quiet block steps to itself, the reply of the step before gone, is the model's choice (log entries 2, 11 and 14). -/
def Obligations.CommandCodes : Prop :=
  decode (.cmd 0b00) = .error .noCommand ∧ decode (.cmd 0b01) = .ok .encode ∧ decode (.cmd 0b10) = .ok .decode ∧
  decode (.cmd 0b11) = .error .reservedCommand ∧
  (∀ s : State, Quiet s → s.encBusy = false → s.decBusy = false →
    step s = .next { s with encReply := false, decReply := none }) ∧
  ∀ s : State, s.resetReq = false → s.cmd = 0b11 → step s = .refused (.rejected .reservedCommand)

/-- The two schedule ROMs, word by word, are the micro-operations the spec lists (R86, R87). -/
def Obligations.ScheduleWords : Prop :=
  [0x00, 0x20, 0x40, 0x60, 0x80, 0x44, 0xA0, 0x20, 0x48, 0x60, 0x80, 0x4C, 0xA0, 0xC0].map (fun w => decode (.uop .enc w)) =
    [.encCarrier, .encHdr, .encBytes 0, .encFooter, .encGap, .encBytes 4, .encGap2,
      .encHdr, .encBytes 8, .encFooter, .encGap, .encBytes 12, .encGap2, .encEnd].map Except.ok ∧
  [0x20, 0x40, 0x60, 0x80, 0x44, 0xA0, 0x20, 0x48, 0x60, 0x80, 0x4C, 0xA0, 0xC0].map (fun w => decode (.uop .dec w)) =
    [.decHdr, .decBytes 0, .decFooter, .decGap, .decBytes 4, .decGap2,
      .decHdr, .decBytes 8, .decFooter, .decGap, .decBytes 12, .decGap2, .decEnd].map Except.ok ∧
  encRom = [0x00, 0x20, 0x40, 0x60, 0x80, 0x44, 0xA0, 0x20, 0x48, 0x60, 0x80, 0x4C, 0xA0, 0xC0] ∧
  decRom = [0x20, 0x40, 0x60, 0x80, 0x44, 0xA0, 0x20, 0x48, 0x60, 0x80, 0x4C, 0xA0, 0xC0]

/-- The five canonical symbols: their Pairs, their PAIR32 words and their codes (R72, R74 to R78). -/
def Obligations.CanonicalSymbols : Prop :=
  symPair .spec .hdr = ⟨9010, 4505⟩ ∧ symPair .spec .one = ⟨680, 1530⟩ ∧ symPair .spec .zero = ⟨680, 510⟩ ∧
  symPair .spec .gap = ⟨680, 19975⟩ ∧ symPair .spec .gap2 = ⟨680, 39950⟩ ∧
  decode (.wire 0x23321199) = .ok .symHdr ∧ decode (.wire 0x02A805FA) = .ok .symOne ∧
  decode (.wire 0x02A801FE) = .ok .symZero ∧ decode (.wire 0x02A84E07) = .ok .symGap ∧
  decode (.wire 0x02A89C0E) = .ok .symGap2 ∧
  pair32 ⟨9010, 4505⟩ = 0x23321199 ∧ pair32 ⟨680, 1530⟩ = 0x02A805FA ∧ pair32 ⟨680, 510⟩ = 0x02A801FE ∧
  pair32 ⟨680, 19975⟩ = 0x02A84E07 ∧ pair32 ⟨680, 39950⟩ = 0x02A89C0E ∧
  symCode .zero = 0 ∧ symCode .one = 1 ∧ symCode .hdr = 2 ∧ symCode .gap = 3 ∧ symCode .gap2 = 4 ∧
  symOfCode 5 = none ∧ symOfCode 6 = none ∧ symOfCode 7 = none ∧ (∀ y, symOfCode (symCode y) = some y) ∧
  ∀ v, symCode (bitSym v) = (if v then 1 else 0)

/-! ### The frame -/

/-- The position map of R85, for the hardwired footer pattern: every frame has 140 symbols, and each half has its symbols where R85
puts them. -/
def Obligations.FramePositionMap : Prop :=
  ∀ (rom : TimingRom) (r : RecordBits), rom.footerPattern = 0b010 →
    (frameSyms rom r).length = 140 ∧
    (∀ h, h < 2 →
      (frameSyms rom r)[70 * h]? = some .hdr ∧
      (∀ i, 70 * h + 1 ≤ i → i ≤ 70 * h + 32 → (frameSyms rom r)[i]? = some (bitSym (recBit r (64 * h + (i - 70 * h - 1))))) ∧
      (frameSyms rom r)[70 * h + 33]? = some .zero ∧ (frameSyms rom r)[70 * h + 34]? = some .one ∧
      (frameSyms rom r)[70 * h + 35]? = some .zero ∧ (frameSyms rom r)[70 * h + 36]? = some .gap ∧
      (∀ i, 70 * h + 37 ≤ i → i ≤ 70 * h + 68 →
        (frameSyms rom r)[i]? = some (bitSym (recBit r (64 * h + 32 + (i - 70 * h - 37))))) ∧
      (frameSyms rom r)[70 * h + 69]? = some .gap2) ∧
    ∀ j, j < 128 →
      (frameSyms rom r)[1 + j + 4 * (if 32 ≤ j then 1 else 0) + 2 * (if 64 ≤ j then 1 else 0) + 4 * (if 96 ≤ j then 1 else 0)]? =
        some (bitSym (recBit r j))

/-- The position function that the decoder's statements use names the symbol of every position of every frame. -/
def Obligations.FrameFollowsSlots : Prop :=
  ∀ (rom : TimingRom) (r : RecordBits) (i : Nat), i < 140 → (frame rom r)[i]? = some (symPair rom ((slotAt rom i).sym r))

/-- The total duration of a frame (R113), for the hardwired ROM and for any other gap mark. -/
def Obligations.FrameDuration : Prop :=
  ∀ r : RecordBits,
    duration (frame .spec r) = 311100 + 1020 * ones r ∧
    ∀ g : Nat, duration (frame { TimingRom.spec with gapMarkT := g } r) = 308380 + 4 * (g * 85) + 1020 * ones r

/-- Every duration of a frame is at most 39950 and so fits a 16-bit field (R11, R112). -/
def Obligations.FrameDurationsFit16Bits : Prop :=
  ∀ (r : RecordBits) (p : Pair), p ∈ frame .spec r → p.mark ≤ 39950 ∧ p.space ≤ 39950 ∧ p.mark < 2 ^ 16 ∧ p.space < 2 ^ 16

/-- All 128 bits are significant (R26): two records with the same frame are equal, wherever ONE and ZERO differ. -/
def Obligations.FrameDeterminesRecord : Prop :=
  ∀ (rom : TimingRom) (r r' : RecordBits), symPair rom .one ≠ symPair rom .zero → frame rom r = frame rom r' → r = r'

/-! ### The encoder -/

/-- ENCODE starts a transaction on the idle unit: the record latched byte by byte, the sink's train emptied, index 0 (R100). That the
start is a step of its own is the model's choice (log entry 7). -/
def Obligations.EncodeStarts : Prop :=
  ∀ s : State, s.encBusy = false →
    ∃ t, exec .encode s = .next t ∧
      t = { s with encBusy := true, encRec := t.encRec, sinkTrain := [], encUpc := 0 } ∧
      t.encRec.wf = true ∧ ∀ a, a < 16 → t.encRec.read a = s.recIn.extractLsb' (8 * a) 8

/-- CARRIER, word 0x00 in slot 0 alone, writes 38000 to the sink's carrier register and changes nothing but that and the schedule
index (R101). -/
def Obligations.EncoderCarrierRuns : Prop :=
  StandsAt .enc 0x00 .encCarrier [0] ∧
  ∀ s : State, s.rom = .spec →
    exec .encCarrier s = .next { s with sinkCarrier := some 38000, encUpc := s.encUpc + 1 }

/-- HDR, FOOTER, GAP and GAP2, in their slots, append their Pairs to the sink's train and change nothing but that and the schedule
index (R102, R105, R106, R107; the gap mark 680 is the spec's decision D4). -/
def Obligations.EncoderFramingRuns : Prop :=
  StandsAt .enc 0x20 .encHdr [1, 7] ∧ StandsAt .enc 0x60 .encFooter [3, 9] ∧ StandsAt .enc 0x80 .encGap [4, 10] ∧
  StandsAt .enc 0xA0 .encGap2 [6, 12] ∧
  ∀ s : State, s.rom = .spec →
    exec .encHdr s = .next { s with sinkTrain := s.sinkTrain ++ [⟨9010, 4505⟩], encUpc := s.encUpc + 1 } ∧
    exec .encFooter s =
      .next { s with sinkTrain := s.sinkTrain ++ [⟨680, 510⟩, ⟨680, 1530⟩, ⟨680, 510⟩], encUpc := s.encUpc + 1 } ∧
    exec .encGap s = .next { s with sinkTrain := s.sinkTrain ++ [⟨680, 19975⟩], encUpc := s.encUpc + 1 } ∧
    exec .encGap2 s = .next { s with sinkTrain := s.sinkTrain ++ [⟨680, 39950⟩], encUpc := s.encUpc + 1 }

/-- BYTES appends the 32 Pairs of its block, bytes ascending and each byte least significant bit first, and leaves ENC.k at 31; it
changes nothing but that and the schedule index. Its words 0x40, 0x44, 0x48, 0x4C stand in slots 2, 5, 8 and 11 (R103). -/
def Obligations.EncoderBytesRuns : Prop :=
  StandsAt .enc 0x40 (.encBytes 0) [2] ∧ StandsAt .enc 0x44 (.encBytes 4) [5] ∧ StandsAt .enc 0x48 (.encBytes 8) [8] ∧
  StandsAt .enc 0x4C (.encBytes 12) [11] ∧
  ∀ (lo : BitVec 5) (s : State), (lo = 0 ∨ lo = 4 ∨ lo = 8 ∨ lo = 12) → s.rom = .spec →
    exec (.encBytes lo) s =
      .next { s with
        sinkTrain := s.sinkTrain ++ (List.range 32).map fun k =>
          if (s.encRec.read (lo.toNat + k / 8)).getLsbD (k % 8) then ⟨680, 1530⟩ else ⟨680, 510⟩
        encK := 31
        encUpc := s.encUpc + 1 }

/-- BYTES expands to E.BIT on its 32 bits in order (R94): run one after the other they leave the sink's train that BYTES leaves. -/
def Obligations.EncoderBytesIsItsBits : Prop :=
  ∀ (lo : BitVec 5) (s : State), (lo = 0 ∨ lo = 4 ∨ lo = 8 ∨ lo = 12) →
    ∃ t u, exec (.encBytes lo) s = .next t ∧
      (List.range 32).foldl
        (fun (o : Host.Outcome State Fault Refusal) k =>
          match o with
          | .next x => exec (.eBit (lo.toNat + k / 8) (k % 8)) x
          | stop => stop) (.next s) = .next u ∧
      t = { u with encK := 31, encUpc := s.encUpc + 1 }

/-- E.BIT appends the Pair of one bit of the latched record and changes nothing else; it has no word of its own (R104). -/
def Obligations.EncoderBitRuns : Prop :=
  (∀ a b, encode (.eBit a b) = none) ∧
  ∀ (a b : Nat) (s : State), a < 16 → b < 8 → s.rom = .spec →
    exec (.eBit a b) s =
      .next { s with
        sinkTrain := s.sinkTrain ++ [if (s.encRec.read a).getLsbD b then ⟨680, 1530⟩ else ⟨680, 510⟩] }

/-- END, word 0xC0 in slot 13 alone, ends the transaction with the reply done; no Pair is emitted and the schedule index does not
advance (R100, R108, R39; that the end of R100's loop is part of END's step is log entry 7). -/
def Obligations.EncoderEndRuns : Prop :=
  StandsAt .enc 0xC0 .encEnd [13] ∧
  ∀ s : State, exec .encEnd s = .next { s with encBusy := false, encReply := true }

/-- The whole ENCODE transaction, whatever the state before (R100, R110): the command and 14 moves of ENC leave the carrier set, the
sink holding exactly the frame of the record, the unit idle and the reply done, and nothing of DEC changed. The count of moves
rests on log entry 7. -/
def Obligations.EncodeProducesFrame : Prop :=
  ∀ (m : Matcher) (s : State), s.encBusy = false →
    ∃ t u, exec .encode s = .next t ∧ runMoves (unitStep m .enc) 14 t = .next u ∧
      u = { s with
        sinkCarrier := some s.rom.carrierHz
        sinkTrain := frame s.rom s.recIn
        encRec := u.encRec
        encUpc := 13
        encK := 31
        encReply := true } ∧
      u.encRec.pack = s.recIn

/-- The same on the step of the machine: with DEC idle, the 15 steps from a pending ENCODE command reach the reply done. The count of
steps rests on log entry 7, CMD back at NONE on log entry 3. -/
def Obligations.EncodeCommandReachesReply : Prop :=
  ∀ (s : State) (r : RecordBits), EncodeReady s r →
    ∃ u, runMoves step 15 s = .next u ∧ u.cmd = 0 ∧ u.encBusy = false ∧ u.encReply = true ∧
      u.sinkCarrier = some s.rom.carrierHz ∧ u.sinkTrain = frame s.rom r ∧ u.rom = s.rom ∧
      u.wire = none ∧ u.resetReq = false ∧ SameDecSide s u

/-! ### The decoder -/

/-- DECODE starts a transaction on the idle unit (R120, R33). That the start is a step of its own is the model's choice (log entry
7). -/
def Obligations.DecodeStarts : Prop :=
  ∀ s : State, s.decBusy = false →
    exec .decode s =
      .next { s with decBusy := true, srcTrain := s.trainIn, srcCur := 0, decUpc := 0 }

/-- EXPECT (R121): on a match the cursor advances by one and nothing else changes; on no match, an exhausted train among them, no
state changes. -/
def Obligations.ExpectConsumesOnMatch : Prop :=
  ∀ (m : Matcher) (p : Pair) (s : State),
    (∀ q, s.srcTrain[s.srcCur]? = some q → m q p = true → s.expect m p = (true, { s with srcCur := s.srcCur + 1 })) ∧
    (∀ q, s.srcTrain[s.srcCur]? = some q → m q p = false → s.expect m p = (false, s)) ∧
    (s.srcTrain.length ≤ s.srcCur → s.expect m p = (false, s))

/-- HDR, GAP and GAP2 of the decoder: one expectation; on a match the cursor and the schedule index advance, otherwise the decode
ends with the reply none (R123, R128, R129, R133). `sees` is the Boolean of EXPECT (ExpectConsumesOnMatch). The gap mark 680 is the
spec's decision D4. -/
def Obligations.DecoderFramingRuns : Prop :=
  StandsAt .dec 0x20 .decHdr [0, 6] ∧ StandsAt .dec 0x80 .decGap [3, 9] ∧ StandsAt .dec 0xA0 .decGap2 [5, 11] ∧
  ∀ s : State, s.rom = .spec →
    exec .decHdr s =
      .next (if s.sees Config.matchFn ⟨9010, 4505⟩ then { s with srcCur := s.srcCur + 1, decUpc := s.decUpc + 1 }
        else { s with decBusy := false, decReply := some none }) ∧
    exec .decGap s =
      .next (if s.sees Config.matchFn ⟨680, 19975⟩ then { s with srcCur := s.srcCur + 1, decUpc := s.decUpc + 1 }
        else { s with decBusy := false, decReply := some none }) ∧
    exec .decGap2 s =
      .next (if s.sees Config.matchFn ⟨680, 39950⟩ then { s with srcCur := s.srcCur + 1, decUpc := s.decUpc + 1 }
        else { s with decBusy := false, decReply := some none })

/-- FOOTER of the decoder: ZERO, ONE, ZERO expected directly, left to right, stopping at the first that does not match (R127). -/
def Obligations.DecoderFooterRuns : Prop :=
  StandsAt .dec 0x60 .decFooter [2, 8] ∧
  ∀ s : State, s.rom = .spec →
    let ok (n : Nat) (p : Pair) : Bool :=
      match s.srcTrain[s.srcCur + n]? with
      | some q => Config.matchFn q p
      | none => false
    exec .decFooter s =
      .next (
        if ok 0 ⟨680, 510⟩ then
          if ok 1 ⟨680, 1530⟩ then
            if ok 2 ⟨680, 510⟩ then { s with srcCur := s.srcCur + 3, decUpc := s.decUpc + 1 }
            else { s with srcCur := s.srcCur + 2, decBusy := false, decReply := some none }
          else { s with srcCur := s.srcCur + 1, decBusy := false, decReply := some none }
        else { s with decBusy := false, decReply := some none })

/-- D.BIT (R124): the ONE attempt first, the ZERO attempt on the same Pair only where it fails, the decode failed where neither
matches; it has no word of its own. That a D.BIT executed alone ends the decode where neither matches, which R124 leaves to the
micro-operation it is part of, is log entry 17 (DEDUCED). -/
def Obligations.DecoderBitRuns : Prop :=
  (∀ a b, encode (.dBit a b) = none) ∧
  ∀ (a b : Nat) (s : State), a < 16 → b < 8 → s.rom = .spec → s.decAcc.wf = true →
    ∃ t, exec (.dBit a b) s = .next t ∧
      (if s.sees Config.matchFn ⟨680, 1530⟩ then
        t = { s with srcCur := s.srcCur + 1, decAcc := t.decAcc } ∧ t.decAcc.readBit (8 * a + b) = true
      else if s.sees Config.matchFn ⟨680, 510⟩ then
        t = { s with srcCur := s.srcCur + 1, decAcc := t.decAcc } ∧ t.decAcc.readBit (8 * a + b) = false
      else t = { s with decBusy := false, decReply := some none }) ∧
      t.decAcc.wf = true ∧ ∀ j, j ≠ 8 * a + b → t.decAcc.readBit j = s.decAcc.readBit j

/-- BYTES of the decoder (R125), its words 0x40, 0x44, 0x48, 0x4C in slots 1, 4, 7 and 10. Where each of the 32 Pairs from the
cursor on matches ONE or ZERO, bit `k` of the block is whether Pair `k` matches ONE, DEC.k is 31 and the schedule index advances;
at the first Pair `i` that matches neither, or is missing, the decode ends with the reply none. No byte outside the block
changes. -/
def Obligations.DecoderBytesRuns : Prop :=
  StandsAt .dec 0x40 (.decBytes 0) [1] ∧ StandsAt .dec 0x44 (.decBytes 4) [4] ∧ StandsAt .dec 0x48 (.decBytes 8) [7] ∧
  StandsAt .dec 0x4C (.decBytes 12) [10] ∧
  ∀ (lo : BitVec 5) (s : State), (lo = 0 ∨ lo = 4 ∨ lo = 8 ∨ lo = 12) → s.rom = .spec → s.decAcc.wf = true →
    let hit (k : Nat) (p : Pair) : Bool :=
      match s.srcTrain[s.srcCur + k]? with
      | some q => Config.matchFn q p
      | none => false
    ∃ t, exec (.decBytes lo) s = .next t ∧
      (match (List.range 32).find? fun k => !(hit k ⟨680, 1530⟩ || hit k ⟨680, 510⟩) with
        | none =>
          t = { s with srcCur := s.srcCur + 32, decAcc := t.decAcc, decK := 31, decUpc := s.decUpc + 1 } ∧
          ∀ k, k < 32 → (t.decAcc.read (lo.toNat + k / 8)).getLsbD (k % 8) = hit k ⟨680, 1530⟩
        | some i =>
          t = { s with
            srcCur := s.srcCur + i
            decAcc := t.decAcc
            decK := BitVec.ofNat 5 i
            decBusy := false
            decReply := some none }) ∧
      t.decAcc.wf = true ∧
      ∀ a, a < lo.toNat ∨ lo.toNat + 4 ≤ a → t.decAcc.read a = s.decAcc.read a

/-- END of the decoder, word 0xC0 in slot 12 alone: the reply is the 16 bytes of DEC.acc; no Pair is examined (R130, R120). -/
def Obligations.DecoderEndRuns : Prop :=
  StandsAt .dec 0xC0 .decEnd [12] ∧
  ∀ s : State, ∃ r : RecordBits,
    exec .decEnd s = .next { s with decBusy := false, decReply := some (some r) } ∧
    ∀ a, a < 16 → r.extractLsb' (8 * a) 8 = s.decAcc.read a

/-- The whole DECODE transaction under every matcher (R120 to R133): within 14 steps a state is reached in which DEC is idle again and
delivers the reply that the train owes position by position, and nothing of ENC has changed. The count of steps rests on log entry
7, CMD back at NONE on log entry 3. -/
def Obligations.DecodeRepliesByPosition : Prop :=
  ∀ (m : Matcher) (s : State) (train : Train), DecodeReady s train → s.decAcc.wf = true →
    ReachesWithin (stepUnder m) 14 s fun u =>
      u.decBusy = false ∧ u.decReply = some (decodeReply m s.rom train) ∧ u.cmd = 0 ∧ u.rom = s.rom ∧ SameEncSide s u

/-- Round trip (R138): under EXACT and SYMSEP, decoding the frame of a record followed by any train gives the record, with the
cursor at 140. -/
def Obligations.RoundTrip : Prop :=
  ∀ (m : Matcher) (s : State) (r : RecordBits) (rest : Train), Exact m s.rom → SymSep m s.rom →
    DecodeReady s (frame s.rom r ++ rest) → s.decAcc.wf = true →
    ∃ u, runMoves (stepUnder m) 14 s = .next u ∧ u.decBusy = false ∧ u.decReply = some (some r) ∧ u.srcCur = 140

/-- The round trip through both units of one machine: ENCODE any record, hand the sink's train to DECODE, and the reply is that
record (R138, R159). -/
def Obligations.EncodeThenDecode : Prop :=
  ∀ (m : Matcher) (s : State) (r : RecordBits), Exact m s.rom → SymSep m s.rom → EncodeReady s r → s.decAcc.wf = true →
    ∃ u, runMoves (stepUnder m) 15 s = .next u ∧ u.encReply = true ∧
      DecodesTo m { u with cmd := 0b10, trainIn := u.sinkTrain } (some r)

/-- Rejection (R139, R135): a train whose first Pair is a canonical symbol other than HDR, under SYMSEP; a train in which the Pair at
some data position matches neither ONE nor ZERO; and a train shorter than 140 Pairs. Each replies none. -/
def Obligations.MismatchRepliesNone : Prop :=
  ∀ (m : Matcher) (s : State) (train : Train), DecodeReady s train → s.decAcc.wf = true →
    ((∃ y, y ≠ Sym.hdr ∧ train[0]? = some (symPair s.rom y)) → SymSep m s.rom → DecodesTo m s none) ∧
    ((∃ j q, j < 128 ∧ train[dataIndex j]? = some q ∧ m q (symPair s.rom .one) = false ∧
      m q (symPair s.rom .zero) = false) → DecodesTo m s none) ∧
    (train.length < 140 → DecodesTo m s none)

/-- Pairs after the 140th are not examined (R134): two trains that agree on their first 140 Pairs give the same reply, whatever
follows index 139 in either, and a train that replies `some` replies the same with anything appended. -/
def Obligations.TrailingPairsIgnored : Prop :=
  ∀ (m : Matcher) (s : State) (train : Train), DecodeReady s train → s.decAcc.wf = true →
    (∀ (train' : Train) (reply : Option RecordBits), train.take 140 = train'.take 140 → DecodesTo m s reply →
      DecodesTo m { s with trainIn := train' } reply) ∧
    ∀ (rest : Train) (r : RecordBits), DecodesTo m s (some r) → DecodesTo m { s with trainIn := train ++ rest } (some r)

/-- The reply of a DECODE is a function of the train and MATCH alone, given the constants ROM (R140): nothing an earlier transaction
left behind reaches it, the unspecified reset values among it (R171). -/
def Obligations.DecodeReadsNoOldState : Prop :=
  ∀ (m : Matcher) (s s' : State) (train : Train) (reply : Option RecordBits), DecodeReady s train → DecodeReady s' train →
    s.rom = s'.rom → s.decAcc.wf = true → s'.decAcc.wf = true → DecodesTo m s reply → DecodesTo m s' reply

/-- How many Pairs a decode consumes and how often it calls MATCH (R141): on `some`, 140 Pairs and one call for each framing Pair
and each 1 bit, two for each 0 bit, so between 140 and 268; on `none`, fewer than 140 Pairs. Said of every state of the run that
delivers a reply. -/
def Obligations.DecodeConsumption : Prop :=
  ∀ (m : Matcher) (s u : State) (train : Train) (k : Nat), DecodeReady s train → s.decAcc.wf = true → 1 ≤ k → k ≤ 14 →
    runMoves (stepUnder m) k s = .next u →
    (∀ r, u.decReply = some (some r) →
      u.srcCur = 140 ∧ decodeCalls m 13 s.startDecode = 12 + ones r + 2 * (128 - ones r) ∧
      140 ≤ decodeCalls m 13 s.startDecode ∧ decodeCalls m 13 s.startDecode ≤ 268) ∧
    (u.decReply = some none → u.srcCur < 140)

/-! ### The symbols on the wire, and the forms that stop -/

/-- The five symbol rows put their canonical Pair on the wire and change nothing else. That a symbol row acts by EMIT is the model's
choice (log entry 12); the Pairs are the spec's (R74 to R78). -/
def Obligations.SymbolsGoOnTheWire : Prop :=
  ∀ s : State, s.rom = .spec →
    exec .symZero s = .next { s with sinkTrain := s.sinkTrain ++ [⟨680, 510⟩] } ∧
    exec .symOne s = .next { s with sinkTrain := s.sinkTrain ++ [⟨680, 1530⟩] } ∧
    exec .symHdr s = .next { s with sinkTrain := s.sinkTrain ++ [⟨9010, 4505⟩] } ∧
    exec .symGap s = .next { s with sinkTrain := s.sinkTrain ++ [⟨680, 19975⟩] } ∧
    exec .symGap2 s = .next { s with sinkTrain := s.sinkTrain ++ [⟨680, 39950⟩] }

/-- The operands that are no operands of the block stop by name: BYTES on an arg that is no block address is refused (R89), a bit
that no record has faults (the model's choice, log entry 13). -/
def Obligations.IllegalOperandsStop : Prop :=
  (∀ (lo : BitVec 5) (s : State), lo ≠ 0 → lo ≠ 4 → lo ≠ 8 → lo ≠ 12 →
    exec (.encBytes lo) s = .refused (.rejected .illegalArg) ∧ exec (.decBytes lo) s = .refused (.rejected .illegalArg)) ∧
  ∀ (a b : Nat) (s : State), 16 ≤ a ∨ 8 ≤ b →
    exec (.eBit a b) s = .fault (.noSuchRecordBit a b) ∧ exec (.dBit a b) s = .fault (.noSuchRecordBit a b)

/-- A command to a busy unit is refused and takes no step; a command to the other unit is not (R176). That the very next step starts
the transaction while the other unit runs is the model's choice (log entry 11). -/
def Obligations.BusyUnitRefusesCommand : Prop :=
  ∀ s : State,
    (s.encBusy = true → exec .encode s = .refused (.unitBusy .enc)) ∧
    (s.decBusy = true → exec .decode s = .refused (.unitBusy .dec)) ∧
    (s.resetReq = false → s.cmd = 0b01 → s.encBusy = true → step s = .refused (.unitBusy .enc)) ∧
    (s.resetReq = false → s.cmd = 0b10 → s.decBusy = true → step s = .refused (.unitBusy .dec)) ∧
    (s.resetReq = false → s.cmd = 0b01 → s.encBusy = false → ∃ t, step s = .next t ∧ t.encBusy = true ∧ SameDecSide s t) ∧
    (s.resetReq = false → s.cmd = 0b10 → s.decBusy = false → ∃ t, step s = .next t ∧ t.decBusy = true ∧ SameEncSide s t)

/-! ### The machine -/

/-- A step runs the decoded instruction: the word the machine fetches, wherever it stands, decoded and executed on a state in which
what the fetch consumes is gone. The model's choices in it: a reply of the step before is gone (log entry 2), CMD is taken (3), the
order of the movers and the schedule input, ENC moving where it is empty (11), and the append at the sink connection (12), which takes
a Pair (R71): a symbol's Pair is that symbol's instruction, and every Pair, symbol or not, is appended as it is. -/
def Obligations.StepRunsFetchedInstruction : Prop :=
  ∀ (s : State) (i : Instr), s.resetReq = false →
    (s.cmd ≠ 0 → decode (.cmd s.cmd) = .ok i →
      step s = exec i { s with cmd := 0, encReply := false, decReply := none }) ∧
    (∀ y, s.cmd = 0 → s.encBusy = false → s.wire = some (symPair s.rom y) →
      step s = exec (symInstr y) { s with wire := none, encReply := false, decReply := none }) ∧
    (∀ p, s.cmd = 0 → s.encBusy = false → s.wire = some p →
      step s = .next { s with wire := none, sinkTrain := s.sinkTrain ++ [p], encReply := false, decReply := none }) ∧
    (∀ w, s.cmd = 0 → s.encBusy = true → s.decBusy = false → encRom[s.encUpc.toNat]? = some w →
      decode (.uop .enc w) = .ok i → step s = exec i { s with encReply := false, decReply := none }) ∧
    (∀ w, s.cmd = 0 → s.wire = none → s.encBusy = false → s.decBusy = true → decRom[s.decUpc.toNat]? = some w →
      decode (.uop .dec w) = .ok i → step s = exec i { s with encReply := false, decReply := none }) ∧
    (∀ w, s.cmd = 0 → s.encBusy = true → s.decBusy = true → s.sched = [] → encRom[s.encUpc.toNat]? = some w →
      decode (.uop .enc w) = .ok i → step s = exec i { s with encReply := false, decReply := none }) ∧
    (∀ w rest, s.cmd = 0 → s.encBusy = true → s.decBusy = true → s.sched = .enc :: rest →
      encRom[s.encUpc.toNat]? = some w → decode (.uop .enc w) = .ok i →
      step s = exec i { s with sched := rest, encReply := false, decReply := none }) ∧
    (∀ w rest, s.cmd = 0 → s.encBusy = true → s.decBusy = true → s.sched = .dec :: rest →
      decRom[s.decUpc.toNat]? = some w → decode (.uop .dec w) = .ok i →
      step s = exec i { s with sched := rest, encReply := false, decReply := none })

/-- The machine's dispatch and step are the ones that run under every matcher, at the open parameter MATCH (R12, R122), so what is
stated under every matcher holds of the machine. -/
def Obligations.StepIsStepUnderMatch : Prop :=
  (∀ (i : Instr) (s : State), exec i s = execUnder Config.matchFn i s) ∧ ∀ s : State, step s = stepUnder Config.matchFn s

/-- The state right after reset (R170): units idle, carrier UNSET, the sink's train empty, no reply pending, the hardwired ROM. -/
def Obligations.ResetState : Prop :=
  State.reset.encBusy = false ∧ State.reset.decBusy = false ∧ State.reset.sinkCarrier = none ∧ State.reset.sinkTrain = [] ∧
  State.reset.encReply = false ∧ State.reset.decReply = none ∧ State.reset.rom = .spec

/-- A reset, also during a transaction (R170): the step abandons whatever runs, delivers no reply, leaves the sink in its reset
state and the ROM as it is. The model's choices (log entry 10), on which R170 and R22 are silent: a reset is requested through a field
of State, which the reset itself clears (`t.resetReq = false`), and it drops a pending command (`t.cmd = 0`). -/
def Obligations.ResetAbandonsTransactions : Prop :=
  ∀ s : State, s.resetReq = true →
    ∃ t, step s = .next t ∧ t.encBusy = false ∧ t.decBusy = false ∧ t.sinkCarrier = none ∧ t.sinkTrain = [] ∧
      t.encReply = false ∧ t.decReply = none ∧ t.rom = s.rom ∧ t.resetReq = false ∧ t.cmd = 0 ∧
      EncodeOnTrack t ∧ (∀ m, DecodeOnTrack m t) ∧ BuffersCanonical t

/-- The constants ROM holds its hardwired values at reset and no operation, no step and so no reset writes it (R22; GAP_MARK_T = 8 is
the spec's decision D4). -/
def Obligations.RomNeverWritten : Prop :=
  State.reset.rom = ⟨85, 106, 53, 8, 18, 6, 235, 2, 8, 38000, 0b010⟩ ∧
  (∀ (i : Instr) (s t : State), exec i s = .next t → t.rom = s.rom) ∧ ∀ s t : State, step s = .next t → t.rom = s.rom

/-- The record buffers keep their canonical form through every step. -/
def Obligations.BuffersStayCanonical : Prop :=
  ∀ s t : State, BuffersCanonical s → step s = .next t → BuffersCanonical t

/-- The encoder's invariant: while ENCODE runs, the sink holds exactly the Pairs of the latched record's frame that stand before the
schedule index (R58, R84, R86), through every step of the machine. -/
def Obligations.EncodeStaysOnTrack : Prop :=
  ∀ s t : State, EncodeOnTrack s → step s = .next t → EncodeOnTrack t

/-- The decoder's invariant, under every matcher: while DECODE runs, the cursor stands where its schedule index says, every Pair
before it has passed, and DEC.acc holds the bits decoded so far (R59, R87, R124), through every step of the machine. -/
def Obligations.DecodeStaysOnTrack : Prop :=
  ∀ (m : Matcher) (s t : State), s.decAcc.wf = true → DecodeOnTrack m s → stepUnder m s = .next t → DecodeOnTrack m t

/-- The three invariants hold at reset, under every matcher. -/
def Obligations.InvariantsHoldAtReset : Prop :=
  BuffersCanonical State.reset ∧ EncodeOnTrack State.reset ∧ ∀ m, DecodeOnTrack m State.reset

/-- The block raises no fault (R150): from a state on track no step faults, and a step is refused only for a reserved command or a
command to a busy unit. A Pair at the sink connection is never refused. -/
def Obligations.StepStopsOnlyOnRefusedInputs : Prop :=
  ∀ s : State, EncodeOnTrack s → DecodeOnTrack Config.matchFn s →
    (∀ f, step s ≠ .fault f) ∧
    ∀ why, step s = .refused why →
      (s.cmd = 0b11 ∧ why = .rejected .reservedCommand) ∨
      (s.cmd = 0b01 ∧ s.encBusy = true ∧ why = .unitBusy .enc) ∨
      (s.cmd = 0b10 ∧ s.decBusy = true ∧ why = .unitBusy .dec)

/-- ENC and DEC share no mutable state (R21): a move of one unit changes nothing the other owns, its reply port included, nor the
ROM, and it reads nothing the other owns: from two states that agree on one unit's side and the ROM, the unit's moves agree on that
side, and on its reply port where the two states do. -/
def Obligations.UnitsShareNoMutableState : Prop :=
  ∀ (m : Matcher) (s t : State),
    (unitStep m .enc s = .next t →
      (SameDecSide s t ∧ t.decReply = s.decReply ∧ t.rom = s.rom) ∧
      ∀ s', SameEncSide s s' → s'.rom = s.rom →
        ∃ t', unitStep m .enc s' = .next t' ∧ SameEncSide t t' ∧ (s.encReply = s'.encReply → t.encReply = t'.encReply)) ∧
    (unitStep m .dec s = .next t →
      (SameEncSide s t ∧ t.encReply = s.encReply ∧ t.rom = s.rom) ∧
      ∀ s', SameDecSide s s' → s'.rom = s.rom →
        ∃ t', unitStep m .dec s' = .next t' ∧ SameDecSide t t' ∧ (s.decReply = s'.decReply → t.decReply = t'.decReply))

/-- Moves of the two units commute (R60): taken in either order they give the same state. -/
def Obligations.UnitMovesCommute : Prop :=
  ∀ (m : Matcher) (s a b : State), unitStep m .enc s = .next a → unitStep m .dec s = .next b →
    ∃ t, unitStep m .dec a = .next t ∧ unitStep m .enc b = .next t

/-- Both units at once, under every interleaving (R21, R60): from any state in which both transactions run, wherever each stands in
its schedule (EncodeOnTrack and DecodeOnTrack, which every step keeps), and whatever the schedule input says (log entry 11), 27
steps leave both units idle and the sink with the frame of the latched record, and on the way the encode's reply done and the
decode's reply as it is alone are delivered. -/
def Obligations.EveryInterleavingGivesTheSameResults : Prop :=
  ∀ (m : Matcher) (s : State), Quiet s → s.encBusy = true → s.decBusy = true → EncodeOnTrack s → DecodeOnTrack m s →
    s.decAcc.wf = true →
    (∃ u, runMoves (stepUnder m) 27 s = .next u ∧ u.encBusy = false ∧ u.decBusy = false ∧
      u.sinkCarrier = some s.rom.carrierHz ∧ u.sinkTrain = frame s.rom s.encRec.pack) ∧
    (ReachesWithin (stepUnder m) 27 s fun u =>
      u.encBusy = false ∧ u.encReply = true ∧ u.sinkCarrier = some s.rom.carrierHz ∧
        u.sinkTrain = frame s.rom s.encRec.pack) ∧
    ReachesWithin (stepUnder m) 27 s fun u => u.decBusy = false ∧ u.decReply = some (decodeReply m s.rom s.srcTrain)

/-- During an ENCODE only ENC writes the sink (R178): a step that is not ENC's own changes neither the sink nor the transaction. -/
def Obligations.SinkIsEncodersWhileBusy : Prop :=
  ∀ s t : State, s.encBusy = true → s.resetReq = false → s.nextMover ≠ .unit .enc → step s = .next t →
    t.sinkTrain = s.sinkTrain ∧ t.sinkCarrier = s.sinkCarrier ∧ t.encBusy = true ∧ t.encRec = s.encRec ∧
    t.encUpc = s.encUpc ∧ t.encK = s.encK

/-- Input stability (R177): what the host does to REC_IN and TRAIN_IN during a transaction has no effect on a move of either
unit. -/
def Obligations.InputsAreStable : Prop :=
  ∀ (m : Matcher) (u : UnitId) (s t : State) (r : RecordBits) (train : Train), unitStep m u s = .next t →
    unitStep m u { s with recIn := r, trainIn := train } = .next { t with recIn := r, trainIn := train }

/-- The field view (R27): the fields have the widths of R27, and under every sound layout a field reads back what was written to it, and a write changes no other field
and no other bit of the raw view. -/
def Obligations.FieldAccess : Prop :=
  (fieldWidth .mode = 3 ∧ fieldWidth .power = 1 ∧ fieldWidth .fanSpeed = 2 ∧ fieldWidth .swingAuto = 1 ∧
    fieldWidth .temperature = 4 ∧ fieldWidth .turbo = 1 ∧ fieldWidth .light = 1 ∧ fieldWidth .ionFilter = 1 ∧
    fieldWidth .xFan = 1 ∧ fieldWidth .verticalSwing = 4 ∧ fieldWidth .horizontalSwing = 1 ∧ fieldWidth .checksum1 = 4 ∧
    fieldWidth .checksum2 = 4 ∧ fieldWidth .quiet = 1 ∧ fieldWidth .fan = 3) ∧
  ∀ layout : FieldLayout, LayoutSound layout → ∀ (f : Field) (v : BitVec (fieldWidth f)) (r : RecordBits),
    getField layout f (setField layout f v r) = v ∧
    (∀ g, g ≠ f → getField layout g (setField layout f v r) = getField layout g r) ∧
    ∀ i, inField layout f i = false → (setField layout f v r).getLsbD i = r.getLsbD i

/-- A reply is not kept after its transaction (R30, R36, R37), under every matcher: a state that a step answers shows a reply of a unit
only if that very step ended a transaction of the unit, whatever stood on the port before. That it shows in that one state is log
entry 2. -/
def Obligations.RepliesAreNotKept : Prop :=
  ∀ (m : Matcher) (s t : State), stepUnder m s = .next t →
    (t.encReply = true → s.encBusy = true ∧ t.encBusy = false) ∧
    (t.decReply ≠ none → s.decBusy = true ∧ t.decBusy = false)

/-- The sink is written by ENC, and outside an ENCODE by an append the host asks of the sink connection, and by nothing else (R32, R40,
R157, R178; the slot is log entry 12): no step fills the slot, none empties it while an ENCODE runs, and with the slot empty a step
that is no move of ENC, no ENCODE command and no reset leaves the sink as it is. -/
def Obligations.SinkHasNoOtherWriter : Prop :=
  ∀ s t : State, step s = .next t →
    (s.wire = none → t.wire = none) ∧
    (s.resetReq = false → s.encBusy = true → t.wire = s.wire) ∧
    (s.resetReq = false → s.wire = none → s.cmd ≠ 0b01 → s.nextMover ≠ .unit .enc →
      t.sinkTrain = s.sinkTrain ∧ t.sinkCarrier = s.sinkCarrier)
end

