-- ==== Sys2Proof/Laws/Memory.lean ====
section
/-! SUPPORT. The laws of the record buffers: read after write, the canonical form, bits and bytes, latching and packing. -/

namespace Sys2Proof.Machine

/-! ### One byte -/

/-- A buffer canonical from `lo` on lists nothing below `lo`. -/
theorem Memory.read_below {mem : Memory} {lo a : Nat} (h : mem.wfFrom lo = true) (ha : a < lo) :
    mem.read a = Memory.unlisted := by
  induction mem generalizing lo with
  | nil => rfl
  | cons p rest ih =>
    obtain ⟨b, v⟩ := p
    simp only [Memory.wfFrom, Bool.and_eq_true, decide_eq_true_eq] at h
    rw [Memory.read, if_neg (by omega)]
    exact ih h.2 (by omega)

theorem Memory.read_write_from {mem : Memory} {lo : Nat} (h : mem.wfFrom lo = true) (a c : Nat) (v : Byte) :
    (mem.write a v).read c = if c = a then v else mem.read c := by
  induction mem generalizing lo with
  | nil =>
    simp only [Memory.write]
    split <;> simp_all [Memory.read]
  | cons p rest ih =>
    obtain ⟨b, w⟩ := p
    simp only [Memory.wfFrom, Bool.and_eq_true, decide_eq_true_eq] at h
    have tail := ih h.2
    have low : ∀ x, x ≤ b → Memory.read rest x = Memory.unlisted :=
      fun x hx => Memory.read_below h.2 (by omega)
    rw [Memory.write]
    by_cases hc : c = a
    · subst hc
      simp only [if_true]
      split
      · split
        · rw [Memory.read, if_neg (by omega), low c (by omega)]; simp_all
        · simp [Memory.read]
      · split
        · split
          · rw [low c (by omega)]; simp_all
          · simp [Memory.read]
        · rw [Memory.read, if_neg (by omega), tail, if_pos rfl]
    · simp only [if_neg hc]
      split
      · split
        · rfl
        · simp [Memory.read, hc]
      · split
        · split
          · simp only [Memory.read]; split
            · omega
            · rfl
          · simp only [Memory.read, if_neg hc]; split
            · omega
            · rfl
        · simp only [Memory.read]; split
          · rfl
          · rw [tail, if_neg hc]

/-- Reading after a write: the written byte at its address, the old byte everywhere else. -/
theorem Memory.read_write {mem : Memory} (h : mem.wf = true) (a c : Nat) (v : Byte) :
    (mem.write a v).read c = if c = a then v else mem.read c :=
  Memory.read_write_from h a c v

theorem Memory.wfFrom_write {mem : Memory} {lo : Nat} (h : mem.wfFrom lo = true) {a : Nat} (v : Byte) (hlo : lo ≤ a)
    (ha : a < 16) : (mem.write a v).wfFrom lo = true := by
  induction mem generalizing lo with
  | nil =>
    simp only [Memory.write]
    split <;> simp_all [Memory.wfFrom]
  | cons p rest ih =>
    obtain ⟨b, w⟩ := p
    simp only [Memory.wfFrom, Bool.and_eq_true, decide_eq_true_eq] at h
    obtain ⟨⟨⟨h1, h2⟩, h3⟩, h4⟩ := h
    have lower : ∀ {l : Memory} {x y : Nat}, l.wfFrom y = true → x ≤ y → l.wfFrom x = true := by
      intro l x y hy hxy
      cases l with
      | nil => rfl
      | cons q r =>
        obtain ⟨c, u⟩ := q
        simp only [Memory.wfFrom, Bool.and_eq_true, decide_eq_true_eq] at hy ⊢
        exact ⟨⟨⟨by omega, hy.1.1.2⟩, hy.1.2⟩, hy.2⟩
    rw [Memory.write]
    split
    · split
      · simp [Memory.wfFrom, h1, h2, h3, h4]
      · rename_i hab hv
        simp only [Memory.wfFrom, Bool.and_eq_true, decide_eq_true_eq]
        exact ⟨⟨⟨hlo, ha⟩, hv⟩, ⟨⟨by omega, h2⟩, h3⟩, h4⟩
    · split
      · split
        · exact lower h4 (by omega)
        · rename_i hab hv
          simp only [Memory.wfFrom, Bool.and_eq_true, decide_eq_true_eq]
          subst hab
          exact ⟨⟨⟨hlo, ha⟩, hv⟩, h4⟩
      · simp only [Memory.wfFrom, Bool.and_eq_true, decide_eq_true_eq]
        exact ⟨⟨⟨h1, h2⟩, h3⟩, ih h4 (by omega)⟩

/-- A write to an address of the record buffer keeps the canonical form. -/
theorem Memory.wf_write {mem : Memory} (h : mem.wf = true) {a : Nat} (v : Byte) (ha : a < 16) :
    (mem.write a v).wf = true :=
  Memory.wfFrom_write h v (Nat.zero_le a) ha

@[simp] theorem Memory.wf_nil : Memory.wf [] = true := rfl

/-! ### One bit -/

/-- The bits of a byte after a bit write. -/
theorem getLsbD_withBit (x : Byte) {b c : Nat} (hb : b < 8) (v : Bool) :
    (withBit x b v).getLsbD c = if c = b then v else x.getLsbD c := by
  unfold withBit
  by_cases hc : c < 8
  · have h1 : (1#8).getLsbD (c - b) = decide (c - b = 0) := by
      cases hcb : c - b with
      | zero => rfl
      | succ k => simp
    cases v
    · simp only [Bool.false_eq_true, if_false, BitVec.getLsbD_and, BitVec.getLsbD_not, BitVec.getLsbD_shiftLeft, h1]
      by_cases hcb : c = b
      · subst hcb; simp [hc]
      · by_cases hlt : c < b
        · simp [hcb, hlt, hc]
        · have : ¬ c - b = 0 := by omega
          simp [hcb, hlt, hc, this]
    · simp only [if_true, BitVec.getLsbD_or, BitVec.getLsbD_shiftLeft, h1]
      by_cases hcb : c = b
      · subst hcb; simp [hc]
      · by_cases hlt : c < b
        · simp [hcb, hlt, hc]
        · have : ¬ c - b = 0 := by omega
          simp [hcb, hlt, hc, this]
  · have hcb : c ≠ b := by omega
    rw [BitVec.getLsbD_of_ge _ _ (by omega), if_neg hcb, BitVec.getLsbD_of_ge _ _ (by omega)]

/-- A bit write changes the bit at its own linear address and no other (R15, R124). -/
theorem Memory.readBit_writeBit {mem : Memory} (h : mem.wf = true) {a b : Nat} (hb : b < 8) (v : Bool) (j : Nat) :
    (mem.writeBit a b v).readBit j = if j = 8 * a + b then v else mem.readBit j := by
  unfold Memory.writeBit Memory.readBit
  rw [Memory.read_write h]
  by_cases hj : j / 8 = a
  · rw [if_pos hj, getLsbD_withBit _ hb, hj]
    by_cases hk : j % 8 = b
    · rw [if_pos hk, if_pos (by omega)]
    · rw [if_neg hk, if_neg (by omega)]
  · rw [if_neg hj, if_neg (by omega)]

/-- A bit write to a byte of the record buffer keeps the canonical form. -/
theorem Memory.wf_writeBit {mem : Memory} (h : mem.wf = true) {a : Nat} (ha : a < 16) (b : Nat) (v : Bool) :
    (mem.writeBit a b v).wf = true :=
  Memory.wf_write h _ ha

/-! ### The 128 record bits -/

/-- `recbit(r, j)` is bit `j` of the 128 record bits (R15, R40). -/
theorem recBit_eq (r : RecordBits) (j : Nat) : recBit r j = r.getLsbD j := by
  unfold recBit recByte
  rw [BitVec.getLsbD_extractLsb']
  have h : j % 8 < 8 := Nat.mod_lt _ (by omega)
  simp only [h, decide_true, Bool.true_and]
  congr 1
  omega

/-- The bits of a packed record are the bits of the buffer (R40). -/
theorem Memory.getLsbD_pack (mem : Memory) {j : Nat} (hj : j < 128) : mem.pack.getLsbD j = mem.readBit j := by
  simp [Memory.pack, hj]

/-- The bytes of a packed record are the bytes of the buffer (R40). -/
theorem Memory.recByte_pack (mem : Memory) {a : Nat} (ha : a < 16) : recByte mem.pack a = mem.read a := by
  apply BitVec.eq_of_getLsbD_eq
  intro b hb
  have h8 : (8 * a + b) / 8 = a := by omega
  have hm : (8 * a + b) % 8 = b := by omega
  rw [recByte, BitVec.getLsbD_extractLsb', Memory.getLsbD_pack mem (by omega), Memory.readBit, h8, hm]
  simp [hb]

/-- Writing a list of bytes in turn: each address of the list reads its byte, every other address its old byte. -/
theorem Memory.foldl_write (f : Nat → Byte) (as : List Nat) (hsmall : ∀ a ∈ as, a < 16) (mem : Memory)
    (h : mem.wf = true) :
    (as.foldl (fun m a => m.write a (f a)) mem).wf = true ∧
    ∀ c, (as.foldl (fun m a => m.write a (f a)) mem).read c = if c ∈ as then f c else mem.read c := by
  induction as generalizing mem with
  | nil => simp [h]
  | cons a as ih =>
    have hw := Memory.wf_write h (f a) (hsmall a (by simp))
    obtain ⟨h1, h2⟩ := ih (fun x hx => hsmall x (by simp [hx])) _ hw
    refine ⟨h1, fun c => ?_⟩
    rw [List.foldl_cons, h2, Memory.read_write h]
    by_cases hc : c ∈ as
    · simp [hc]
    · by_cases hca : c = a
      · subst hca; simp
      · simp [hc, hca]

/-- A latched record is in canonical form. -/
@[simp] theorem Memory.wf_latch (r : RecordBits) : (Memory.latch r).wf = true :=
  (Memory.foldl_write (recByte r) (List.range 16) (by simp) [] rfl).1

/-- A latched record reads as the bytes of REC_IN (R55, R100). -/
theorem Memory.read_latch (r : RecordBits) {a : Nat} (ha : a < 16) : (Memory.latch r).read a = recByte r a := by
  rw [Memory.latch, (Memory.foldl_write (recByte r) (List.range 16) (by simp) [] rfl).2, if_pos (by simpa using ha)]

/-- Packing a latched record gives the record back. -/
@[simp] theorem Memory.pack_latch (r : RecordBits) : (Memory.latch r).pack = r := by
  apply BitVec.eq_of_getLsbD_eq
  intro j hj
  rw [Memory.getLsbD_pack _ hj, Memory.readBit, Memory.read_latch _ (by omega), ← recBit_eq]
  rfl

end Sys2Proof.Machine
end

