-- ==== Sys2Proof/Laws/State.lean ====
section
/-! SUPPORT. One lemma per field per named update of State: the new value of each field an update writes, and that it leaves every
other field alone. -/

namespace Sys2Proof.Machine

variable (s : State)

@[simp] theorem State.emit_rom (p : Pair) : (s.emit p).rom = s.rom := rfl
@[simp] theorem State.emit_sinkCarrier (p : Pair) : (s.emit p).sinkCarrier = s.sinkCarrier := rfl
@[simp] theorem State.emit_sinkTrain (p : Pair) : (s.emit p).sinkTrain = s.sinkTrain ++ [p] := rfl
@[simp] theorem State.emit_srcTrain (p : Pair) : (s.emit p).srcTrain = s.srcTrain := rfl
@[simp] theorem State.emit_srcCur (p : Pair) : (s.emit p).srcCur = s.srcCur := rfl
@[simp] theorem State.emit_encBusy (p : Pair) : (s.emit p).encBusy = s.encBusy := rfl
@[simp] theorem State.emit_encRec (p : Pair) : (s.emit p).encRec = s.encRec := rfl
@[simp] theorem State.emit_encUpc (p : Pair) : (s.emit p).encUpc = s.encUpc := rfl
@[simp] theorem State.emit_encK (p : Pair) : (s.emit p).encK = s.encK := rfl
@[simp] theorem State.emit_decBusy (p : Pair) : (s.emit p).decBusy = s.decBusy := rfl
@[simp] theorem State.emit_decAcc (p : Pair) : (s.emit p).decAcc = s.decAcc := rfl
@[simp] theorem State.emit_decUpc (p : Pair) : (s.emit p).decUpc = s.decUpc := rfl
@[simp] theorem State.emit_decK (p : Pair) : (s.emit p).decK = s.decK := rfl
@[simp] theorem State.emit_cmd (p : Pair) : (s.emit p).cmd = s.cmd := rfl
@[simp] theorem State.emit_recIn (p : Pair) : (s.emit p).recIn = s.recIn := rfl
@[simp] theorem State.emit_trainIn (p : Pair) : (s.emit p).trainIn = s.trainIn := rfl
@[simp] theorem State.emit_encReply (p : Pair) : (s.emit p).encReply = s.encReply := rfl
@[simp] theorem State.emit_decReply (p : Pair) : (s.emit p).decReply = s.decReply := rfl
@[simp] theorem State.emit_wire (p : Pair) : (s.emit p).wire = s.wire := rfl
@[simp] theorem State.emit_sched (p : Pair) : (s.emit p).sched = s.sched := rfl
@[simp] theorem State.emit_resetReq (p : Pair) : (s.emit p).resetReq = s.resetReq := rfl

@[simp] theorem State.setCarrier_rom (f : Nat) : (s.setCarrier f).rom = s.rom := rfl
@[simp] theorem State.setCarrier_sinkCarrier (f : Nat) : (s.setCarrier f).sinkCarrier = some f := rfl
@[simp] theorem State.setCarrier_sinkTrain (f : Nat) : (s.setCarrier f).sinkTrain = s.sinkTrain := rfl
@[simp] theorem State.setCarrier_srcTrain (f : Nat) : (s.setCarrier f).srcTrain = s.srcTrain := rfl
@[simp] theorem State.setCarrier_srcCur (f : Nat) : (s.setCarrier f).srcCur = s.srcCur := rfl
@[simp] theorem State.setCarrier_encBusy (f : Nat) : (s.setCarrier f).encBusy = s.encBusy := rfl
@[simp] theorem State.setCarrier_encRec (f : Nat) : (s.setCarrier f).encRec = s.encRec := rfl
@[simp] theorem State.setCarrier_encUpc (f : Nat) : (s.setCarrier f).encUpc = s.encUpc := rfl
@[simp] theorem State.setCarrier_encK (f : Nat) : (s.setCarrier f).encK = s.encK := rfl
@[simp] theorem State.setCarrier_decBusy (f : Nat) : (s.setCarrier f).decBusy = s.decBusy := rfl
@[simp] theorem State.setCarrier_decAcc (f : Nat) : (s.setCarrier f).decAcc = s.decAcc := rfl
@[simp] theorem State.setCarrier_decUpc (f : Nat) : (s.setCarrier f).decUpc = s.decUpc := rfl
@[simp] theorem State.setCarrier_decK (f : Nat) : (s.setCarrier f).decK = s.decK := rfl
@[simp] theorem State.setCarrier_cmd (f : Nat) : (s.setCarrier f).cmd = s.cmd := rfl
@[simp] theorem State.setCarrier_recIn (f : Nat) : (s.setCarrier f).recIn = s.recIn := rfl
@[simp] theorem State.setCarrier_trainIn (f : Nat) : (s.setCarrier f).trainIn = s.trainIn := rfl
@[simp] theorem State.setCarrier_encReply (f : Nat) : (s.setCarrier f).encReply = s.encReply := rfl
@[simp] theorem State.setCarrier_decReply (f : Nat) : (s.setCarrier f).decReply = s.decReply := rfl
@[simp] theorem State.setCarrier_wire (f : Nat) : (s.setCarrier f).wire = s.wire := rfl
@[simp] theorem State.setCarrier_sched (f : Nat) : (s.setCarrier f).sched = s.sched := rfl
@[simp] theorem State.setCarrier_resetReq (f : Nat) : (s.setCarrier f).resetReq = s.resetReq := rfl

@[simp] theorem State.setEncK_rom (k : Nat) : (s.setEncK k).rom = s.rom := rfl
@[simp] theorem State.setEncK_sinkCarrier (k : Nat) : (s.setEncK k).sinkCarrier = s.sinkCarrier := rfl
@[simp] theorem State.setEncK_sinkTrain (k : Nat) : (s.setEncK k).sinkTrain = s.sinkTrain := rfl
@[simp] theorem State.setEncK_srcTrain (k : Nat) : (s.setEncK k).srcTrain = s.srcTrain := rfl
@[simp] theorem State.setEncK_srcCur (k : Nat) : (s.setEncK k).srcCur = s.srcCur := rfl
@[simp] theorem State.setEncK_encBusy (k : Nat) : (s.setEncK k).encBusy = s.encBusy := rfl
@[simp] theorem State.setEncK_encRec (k : Nat) : (s.setEncK k).encRec = s.encRec := rfl
@[simp] theorem State.setEncK_encUpc (k : Nat) : (s.setEncK k).encUpc = s.encUpc := rfl
@[simp] theorem State.setEncK_encK (k : Nat) : (s.setEncK k).encK = BitVec.ofNat 5 k := rfl
@[simp] theorem State.setEncK_decBusy (k : Nat) : (s.setEncK k).decBusy = s.decBusy := rfl
@[simp] theorem State.setEncK_decAcc (k : Nat) : (s.setEncK k).decAcc = s.decAcc := rfl
@[simp] theorem State.setEncK_decUpc (k : Nat) : (s.setEncK k).decUpc = s.decUpc := rfl
@[simp] theorem State.setEncK_decK (k : Nat) : (s.setEncK k).decK = s.decK := rfl
@[simp] theorem State.setEncK_cmd (k : Nat) : (s.setEncK k).cmd = s.cmd := rfl
@[simp] theorem State.setEncK_recIn (k : Nat) : (s.setEncK k).recIn = s.recIn := rfl
@[simp] theorem State.setEncK_trainIn (k : Nat) : (s.setEncK k).trainIn = s.trainIn := rfl
@[simp] theorem State.setEncK_encReply (k : Nat) : (s.setEncK k).encReply = s.encReply := rfl
@[simp] theorem State.setEncK_decReply (k : Nat) : (s.setEncK k).decReply = s.decReply := rfl
@[simp] theorem State.setEncK_wire (k : Nat) : (s.setEncK k).wire = s.wire := rfl
@[simp] theorem State.setEncK_sched (k : Nat) : (s.setEncK k).sched = s.sched := rfl
@[simp] theorem State.setEncK_resetReq (k : Nat) : (s.setEncK k).resetReq = s.resetReq := rfl

@[simp] theorem State.setDecK_rom (k : Nat) : (s.setDecK k).rom = s.rom := rfl
@[simp] theorem State.setDecK_sinkCarrier (k : Nat) : (s.setDecK k).sinkCarrier = s.sinkCarrier := rfl
@[simp] theorem State.setDecK_sinkTrain (k : Nat) : (s.setDecK k).sinkTrain = s.sinkTrain := rfl
@[simp] theorem State.setDecK_srcTrain (k : Nat) : (s.setDecK k).srcTrain = s.srcTrain := rfl
@[simp] theorem State.setDecK_srcCur (k : Nat) : (s.setDecK k).srcCur = s.srcCur := rfl
@[simp] theorem State.setDecK_encBusy (k : Nat) : (s.setDecK k).encBusy = s.encBusy := rfl
@[simp] theorem State.setDecK_encRec (k : Nat) : (s.setDecK k).encRec = s.encRec := rfl
@[simp] theorem State.setDecK_encUpc (k : Nat) : (s.setDecK k).encUpc = s.encUpc := rfl
@[simp] theorem State.setDecK_encK (k : Nat) : (s.setDecK k).encK = s.encK := rfl
@[simp] theorem State.setDecK_decBusy (k : Nat) : (s.setDecK k).decBusy = s.decBusy := rfl
@[simp] theorem State.setDecK_decAcc (k : Nat) : (s.setDecK k).decAcc = s.decAcc := rfl
@[simp] theorem State.setDecK_decUpc (k : Nat) : (s.setDecK k).decUpc = s.decUpc := rfl
@[simp] theorem State.setDecK_decK (k : Nat) : (s.setDecK k).decK = BitVec.ofNat 5 k := rfl
@[simp] theorem State.setDecK_cmd (k : Nat) : (s.setDecK k).cmd = s.cmd := rfl
@[simp] theorem State.setDecK_recIn (k : Nat) : (s.setDecK k).recIn = s.recIn := rfl
@[simp] theorem State.setDecK_trainIn (k : Nat) : (s.setDecK k).trainIn = s.trainIn := rfl
@[simp] theorem State.setDecK_encReply (k : Nat) : (s.setDecK k).encReply = s.encReply := rfl
@[simp] theorem State.setDecK_decReply (k : Nat) : (s.setDecK k).decReply = s.decReply := rfl
@[simp] theorem State.setDecK_wire (k : Nat) : (s.setDecK k).wire = s.wire := rfl
@[simp] theorem State.setDecK_sched (k : Nat) : (s.setDecK k).sched = s.sched := rfl
@[simp] theorem State.setDecK_resetReq (k : Nat) : (s.setDecK k).resetReq = s.resetReq := rfl

@[simp] theorem State.setAccBit_rom (a b : Nat) (v : Bool) : (s.setAccBit a b v).rom = s.rom := rfl
@[simp] theorem State.setAccBit_sinkCarrier (a b : Nat) (v : Bool) : (s.setAccBit a b v).sinkCarrier = s.sinkCarrier := rfl
@[simp] theorem State.setAccBit_sinkTrain (a b : Nat) (v : Bool) : (s.setAccBit a b v).sinkTrain = s.sinkTrain := rfl
@[simp] theorem State.setAccBit_srcTrain (a b : Nat) (v : Bool) : (s.setAccBit a b v).srcTrain = s.srcTrain := rfl
@[simp] theorem State.setAccBit_srcCur (a b : Nat) (v : Bool) : (s.setAccBit a b v).srcCur = s.srcCur := rfl
@[simp] theorem State.setAccBit_encBusy (a b : Nat) (v : Bool) : (s.setAccBit a b v).encBusy = s.encBusy := rfl
@[simp] theorem State.setAccBit_encRec (a b : Nat) (v : Bool) : (s.setAccBit a b v).encRec = s.encRec := rfl
@[simp] theorem State.setAccBit_encUpc (a b : Nat) (v : Bool) : (s.setAccBit a b v).encUpc = s.encUpc := rfl
@[simp] theorem State.setAccBit_encK (a b : Nat) (v : Bool) : (s.setAccBit a b v).encK = s.encK := rfl
@[simp] theorem State.setAccBit_decBusy (a b : Nat) (v : Bool) : (s.setAccBit a b v).decBusy = s.decBusy := rfl
@[simp] theorem State.setAccBit_decAcc (a b : Nat) (v : Bool) : (s.setAccBit a b v).decAcc = s.decAcc.writeBit a b v := rfl
@[simp] theorem State.setAccBit_decUpc (a b : Nat) (v : Bool) : (s.setAccBit a b v).decUpc = s.decUpc := rfl
@[simp] theorem State.setAccBit_decK (a b : Nat) (v : Bool) : (s.setAccBit a b v).decK = s.decK := rfl
@[simp] theorem State.setAccBit_cmd (a b : Nat) (v : Bool) : (s.setAccBit a b v).cmd = s.cmd := rfl
@[simp] theorem State.setAccBit_recIn (a b : Nat) (v : Bool) : (s.setAccBit a b v).recIn = s.recIn := rfl
@[simp] theorem State.setAccBit_trainIn (a b : Nat) (v : Bool) : (s.setAccBit a b v).trainIn = s.trainIn := rfl
@[simp] theorem State.setAccBit_encReply (a b : Nat) (v : Bool) : (s.setAccBit a b v).encReply = s.encReply := rfl
@[simp] theorem State.setAccBit_decReply (a b : Nat) (v : Bool) : (s.setAccBit a b v).decReply = s.decReply := rfl
@[simp] theorem State.setAccBit_wire (a b : Nat) (v : Bool) : (s.setAccBit a b v).wire = s.wire := rfl
@[simp] theorem State.setAccBit_sched (a b : Nat) (v : Bool) : (s.setAccBit a b v).sched = s.sched := rfl
@[simp] theorem State.setAccBit_resetReq (a b : Nat) (v : Bool) : (s.setAccBit a b v).resetReq = s.resetReq := rfl

@[simp] theorem State.advanceCur_rom : s.advanceCur.rom = s.rom := rfl
@[simp] theorem State.advanceCur_sinkCarrier : s.advanceCur.sinkCarrier = s.sinkCarrier := rfl
@[simp] theorem State.advanceCur_sinkTrain : s.advanceCur.sinkTrain = s.sinkTrain := rfl
@[simp] theorem State.advanceCur_srcTrain : s.advanceCur.srcTrain = s.srcTrain := rfl
@[simp] theorem State.advanceCur_srcCur : s.advanceCur.srcCur = s.srcCur + 1 := rfl
@[simp] theorem State.advanceCur_encBusy : s.advanceCur.encBusy = s.encBusy := rfl
@[simp] theorem State.advanceCur_encRec : s.advanceCur.encRec = s.encRec := rfl
@[simp] theorem State.advanceCur_encUpc : s.advanceCur.encUpc = s.encUpc := rfl
@[simp] theorem State.advanceCur_encK : s.advanceCur.encK = s.encK := rfl
@[simp] theorem State.advanceCur_decBusy : s.advanceCur.decBusy = s.decBusy := rfl
@[simp] theorem State.advanceCur_decAcc : s.advanceCur.decAcc = s.decAcc := rfl
@[simp] theorem State.advanceCur_decUpc : s.advanceCur.decUpc = s.decUpc := rfl
@[simp] theorem State.advanceCur_decK : s.advanceCur.decK = s.decK := rfl
@[simp] theorem State.advanceCur_cmd : s.advanceCur.cmd = s.cmd := rfl
@[simp] theorem State.advanceCur_recIn : s.advanceCur.recIn = s.recIn := rfl
@[simp] theorem State.advanceCur_trainIn : s.advanceCur.trainIn = s.trainIn := rfl
@[simp] theorem State.advanceCur_encReply : s.advanceCur.encReply = s.encReply := rfl
@[simp] theorem State.advanceCur_decReply : s.advanceCur.decReply = s.decReply := rfl
@[simp] theorem State.advanceCur_wire : s.advanceCur.wire = s.wire := rfl
@[simp] theorem State.advanceCur_sched : s.advanceCur.sched = s.sched := rfl
@[simp] theorem State.advanceCur_resetReq : s.advanceCur.resetReq = s.resetReq := rfl

@[simp] theorem State.encAdvance_rom : s.encAdvance.rom = s.rom := rfl
@[simp] theorem State.encAdvance_sinkCarrier : s.encAdvance.sinkCarrier = s.sinkCarrier := rfl
@[simp] theorem State.encAdvance_sinkTrain : s.encAdvance.sinkTrain = s.sinkTrain := rfl
@[simp] theorem State.encAdvance_srcTrain : s.encAdvance.srcTrain = s.srcTrain := rfl
@[simp] theorem State.encAdvance_srcCur : s.encAdvance.srcCur = s.srcCur := rfl
@[simp] theorem State.encAdvance_encBusy : s.encAdvance.encBusy = s.encBusy := rfl
@[simp] theorem State.encAdvance_encRec : s.encAdvance.encRec = s.encRec := rfl
@[simp] theorem State.encAdvance_encUpc : s.encAdvance.encUpc = s.encUpc + 1 := rfl
@[simp] theorem State.encAdvance_encK : s.encAdvance.encK = s.encK := rfl
@[simp] theorem State.encAdvance_decBusy : s.encAdvance.decBusy = s.decBusy := rfl
@[simp] theorem State.encAdvance_decAcc : s.encAdvance.decAcc = s.decAcc := rfl
@[simp] theorem State.encAdvance_decUpc : s.encAdvance.decUpc = s.decUpc := rfl
@[simp] theorem State.encAdvance_decK : s.encAdvance.decK = s.decK := rfl
@[simp] theorem State.encAdvance_cmd : s.encAdvance.cmd = s.cmd := rfl
@[simp] theorem State.encAdvance_recIn : s.encAdvance.recIn = s.recIn := rfl
@[simp] theorem State.encAdvance_trainIn : s.encAdvance.trainIn = s.trainIn := rfl
@[simp] theorem State.encAdvance_encReply : s.encAdvance.encReply = s.encReply := rfl
@[simp] theorem State.encAdvance_decReply : s.encAdvance.decReply = s.decReply := rfl
@[simp] theorem State.encAdvance_wire : s.encAdvance.wire = s.wire := rfl
@[simp] theorem State.encAdvance_sched : s.encAdvance.sched = s.sched := rfl
@[simp] theorem State.encAdvance_resetReq : s.encAdvance.resetReq = s.resetReq := rfl

@[simp] theorem State.decAdvance_rom : s.decAdvance.rom = s.rom := rfl
@[simp] theorem State.decAdvance_sinkCarrier : s.decAdvance.sinkCarrier = s.sinkCarrier := rfl
@[simp] theorem State.decAdvance_sinkTrain : s.decAdvance.sinkTrain = s.sinkTrain := rfl
@[simp] theorem State.decAdvance_srcTrain : s.decAdvance.srcTrain = s.srcTrain := rfl
@[simp] theorem State.decAdvance_srcCur : s.decAdvance.srcCur = s.srcCur := rfl
@[simp] theorem State.decAdvance_encBusy : s.decAdvance.encBusy = s.encBusy := rfl
@[simp] theorem State.decAdvance_encRec : s.decAdvance.encRec = s.encRec := rfl
@[simp] theorem State.decAdvance_encUpc : s.decAdvance.encUpc = s.encUpc := rfl
@[simp] theorem State.decAdvance_encK : s.decAdvance.encK = s.encK := rfl
@[simp] theorem State.decAdvance_decBusy : s.decAdvance.decBusy = s.decBusy := rfl
@[simp] theorem State.decAdvance_decAcc : s.decAdvance.decAcc = s.decAcc := rfl
@[simp] theorem State.decAdvance_decUpc : s.decAdvance.decUpc = s.decUpc + 1 := rfl
@[simp] theorem State.decAdvance_decK : s.decAdvance.decK = s.decK := rfl
@[simp] theorem State.decAdvance_cmd : s.decAdvance.cmd = s.cmd := rfl
@[simp] theorem State.decAdvance_recIn : s.decAdvance.recIn = s.recIn := rfl
@[simp] theorem State.decAdvance_trainIn : s.decAdvance.trainIn = s.trainIn := rfl
@[simp] theorem State.decAdvance_encReply : s.decAdvance.encReply = s.encReply := rfl
@[simp] theorem State.decAdvance_decReply : s.decAdvance.decReply = s.decReply := rfl
@[simp] theorem State.decAdvance_wire : s.decAdvance.wire = s.wire := rfl
@[simp] theorem State.decAdvance_sched : s.decAdvance.sched = s.sched := rfl
@[simp] theorem State.decAdvance_resetReq : s.decAdvance.resetReq = s.resetReq := rfl

@[simp] theorem State.takeReplies_rom : s.takeReplies.rom = s.rom := rfl
@[simp] theorem State.takeReplies_sinkCarrier : s.takeReplies.sinkCarrier = s.sinkCarrier := rfl
@[simp] theorem State.takeReplies_sinkTrain : s.takeReplies.sinkTrain = s.sinkTrain := rfl
@[simp] theorem State.takeReplies_srcTrain : s.takeReplies.srcTrain = s.srcTrain := rfl
@[simp] theorem State.takeReplies_srcCur : s.takeReplies.srcCur = s.srcCur := rfl
@[simp] theorem State.takeReplies_encBusy : s.takeReplies.encBusy = s.encBusy := rfl
@[simp] theorem State.takeReplies_encRec : s.takeReplies.encRec = s.encRec := rfl
@[simp] theorem State.takeReplies_encUpc : s.takeReplies.encUpc = s.encUpc := rfl
@[simp] theorem State.takeReplies_encK : s.takeReplies.encK = s.encK := rfl
@[simp] theorem State.takeReplies_decBusy : s.takeReplies.decBusy = s.decBusy := rfl
@[simp] theorem State.takeReplies_decAcc : s.takeReplies.decAcc = s.decAcc := rfl
@[simp] theorem State.takeReplies_decUpc : s.takeReplies.decUpc = s.decUpc := rfl
@[simp] theorem State.takeReplies_decK : s.takeReplies.decK = s.decK := rfl
@[simp] theorem State.takeReplies_cmd : s.takeReplies.cmd = s.cmd := rfl
@[simp] theorem State.takeReplies_recIn : s.takeReplies.recIn = s.recIn := rfl
@[simp] theorem State.takeReplies_trainIn : s.takeReplies.trainIn = s.trainIn := rfl
@[simp] theorem State.takeReplies_encReply : s.takeReplies.encReply = false := rfl
@[simp] theorem State.takeReplies_decReply : s.takeReplies.decReply = none := rfl
@[simp] theorem State.takeReplies_wire : s.takeReplies.wire = s.wire := rfl
@[simp] theorem State.takeReplies_sched : s.takeReplies.sched = s.sched := rfl
@[simp] theorem State.takeReplies_resetReq : s.takeReplies.resetReq = s.resetReq := rfl

@[simp] theorem State.startEncode_rom : s.startEncode.rom = s.rom := rfl
@[simp] theorem State.startEncode_sinkCarrier : s.startEncode.sinkCarrier = s.sinkCarrier := rfl
@[simp] theorem State.startEncode_sinkTrain : s.startEncode.sinkTrain = [] := rfl
@[simp] theorem State.startEncode_srcTrain : s.startEncode.srcTrain = s.srcTrain := rfl
@[simp] theorem State.startEncode_srcCur : s.startEncode.srcCur = s.srcCur := rfl
@[simp] theorem State.startEncode_encBusy : s.startEncode.encBusy = true := rfl
@[simp] theorem State.startEncode_encRec : s.startEncode.encRec = Memory.latch s.recIn := by
  rw [State.startEncode]
@[simp] theorem State.startEncode_encUpc : s.startEncode.encUpc = 0 := rfl
@[simp] theorem State.startEncode_encK : s.startEncode.encK = s.encK := rfl
@[simp] theorem State.startEncode_decBusy : s.startEncode.decBusy = s.decBusy := rfl
@[simp] theorem State.startEncode_decAcc : s.startEncode.decAcc = s.decAcc := rfl
@[simp] theorem State.startEncode_decUpc : s.startEncode.decUpc = s.decUpc := rfl
@[simp] theorem State.startEncode_decK : s.startEncode.decK = s.decK := rfl
@[simp] theorem State.startEncode_cmd : s.startEncode.cmd = s.cmd := rfl
@[simp] theorem State.startEncode_recIn : s.startEncode.recIn = s.recIn := rfl
@[simp] theorem State.startEncode_trainIn : s.startEncode.trainIn = s.trainIn := rfl
@[simp] theorem State.startEncode_encReply : s.startEncode.encReply = s.encReply := rfl
@[simp] theorem State.startEncode_decReply : s.startEncode.decReply = s.decReply := rfl
@[simp] theorem State.startEncode_wire : s.startEncode.wire = s.wire := rfl
@[simp] theorem State.startEncode_sched : s.startEncode.sched = s.sched := rfl
@[simp] theorem State.startEncode_resetReq : s.startEncode.resetReq = s.resetReq := rfl

@[simp] theorem State.endEncode_rom : s.endEncode.rom = s.rom := rfl
@[simp] theorem State.endEncode_sinkCarrier : s.endEncode.sinkCarrier = s.sinkCarrier := rfl
@[simp] theorem State.endEncode_sinkTrain : s.endEncode.sinkTrain = s.sinkTrain := rfl
@[simp] theorem State.endEncode_srcTrain : s.endEncode.srcTrain = s.srcTrain := rfl
@[simp] theorem State.endEncode_srcCur : s.endEncode.srcCur = s.srcCur := rfl
@[simp] theorem State.endEncode_encBusy : s.endEncode.encBusy = false := rfl
@[simp] theorem State.endEncode_encRec : s.endEncode.encRec = s.encRec := rfl
@[simp] theorem State.endEncode_encUpc : s.endEncode.encUpc = s.encUpc := rfl
@[simp] theorem State.endEncode_encK : s.endEncode.encK = s.encK := rfl
@[simp] theorem State.endEncode_decBusy : s.endEncode.decBusy = s.decBusy := rfl
@[simp] theorem State.endEncode_decAcc : s.endEncode.decAcc = s.decAcc := rfl
@[simp] theorem State.endEncode_decUpc : s.endEncode.decUpc = s.decUpc := rfl
@[simp] theorem State.endEncode_decK : s.endEncode.decK = s.decK := rfl
@[simp] theorem State.endEncode_cmd : s.endEncode.cmd = s.cmd := rfl
@[simp] theorem State.endEncode_recIn : s.endEncode.recIn = s.recIn := rfl
@[simp] theorem State.endEncode_trainIn : s.endEncode.trainIn = s.trainIn := rfl
@[simp] theorem State.endEncode_encReply : s.endEncode.encReply = true := rfl
@[simp] theorem State.endEncode_decReply : s.endEncode.decReply = s.decReply := rfl
@[simp] theorem State.endEncode_wire : s.endEncode.wire = s.wire := rfl
@[simp] theorem State.endEncode_sched : s.endEncode.sched = s.sched := rfl
@[simp] theorem State.endEncode_resetReq : s.endEncode.resetReq = s.resetReq := rfl

@[simp] theorem State.startDecode_rom : s.startDecode.rom = s.rom := rfl
@[simp] theorem State.startDecode_sinkCarrier : s.startDecode.sinkCarrier = s.sinkCarrier := rfl
@[simp] theorem State.startDecode_sinkTrain : s.startDecode.sinkTrain = s.sinkTrain := rfl
@[simp] theorem State.startDecode_srcTrain : s.startDecode.srcTrain = s.trainIn := rfl
@[simp] theorem State.startDecode_srcCur : s.startDecode.srcCur = 0 := rfl
@[simp] theorem State.startDecode_encBusy : s.startDecode.encBusy = s.encBusy := rfl
@[simp] theorem State.startDecode_encRec : s.startDecode.encRec = s.encRec := rfl
@[simp] theorem State.startDecode_encUpc : s.startDecode.encUpc = s.encUpc := rfl
@[simp] theorem State.startDecode_encK : s.startDecode.encK = s.encK := rfl
@[simp] theorem State.startDecode_decBusy : s.startDecode.decBusy = true := rfl
@[simp] theorem State.startDecode_decAcc : s.startDecode.decAcc = s.decAcc := rfl
@[simp] theorem State.startDecode_decUpc : s.startDecode.decUpc = 0 := rfl
@[simp] theorem State.startDecode_decK : s.startDecode.decK = s.decK := rfl
@[simp] theorem State.startDecode_cmd : s.startDecode.cmd = s.cmd := rfl
@[simp] theorem State.startDecode_recIn : s.startDecode.recIn = s.recIn := rfl
@[simp] theorem State.startDecode_trainIn : s.startDecode.trainIn = s.trainIn := rfl
@[simp] theorem State.startDecode_encReply : s.startDecode.encReply = s.encReply := rfl
@[simp] theorem State.startDecode_decReply : s.startDecode.decReply = s.decReply := rfl
@[simp] theorem State.startDecode_wire : s.startDecode.wire = s.wire := rfl
@[simp] theorem State.startDecode_sched : s.startDecode.sched = s.sched := rfl
@[simp] theorem State.startDecode_resetReq : s.startDecode.resetReq = s.resetReq := rfl

@[simp] theorem State.endDecode_rom (reply : Option RecordBits) : (s.endDecode reply).rom = s.rom := rfl
@[simp] theorem State.endDecode_sinkCarrier (reply : Option RecordBits) : (s.endDecode reply).sinkCarrier = s.sinkCarrier := rfl
@[simp] theorem State.endDecode_sinkTrain (reply : Option RecordBits) : (s.endDecode reply).sinkTrain = s.sinkTrain := rfl
@[simp] theorem State.endDecode_srcTrain (reply : Option RecordBits) : (s.endDecode reply).srcTrain = s.srcTrain := rfl
@[simp] theorem State.endDecode_srcCur (reply : Option RecordBits) : (s.endDecode reply).srcCur = s.srcCur := rfl
@[simp] theorem State.endDecode_encBusy (reply : Option RecordBits) : (s.endDecode reply).encBusy = s.encBusy := rfl
@[simp] theorem State.endDecode_encRec (reply : Option RecordBits) : (s.endDecode reply).encRec = s.encRec := rfl
@[simp] theorem State.endDecode_encUpc (reply : Option RecordBits) : (s.endDecode reply).encUpc = s.encUpc := rfl
@[simp] theorem State.endDecode_encK (reply : Option RecordBits) : (s.endDecode reply).encK = s.encK := rfl
@[simp] theorem State.endDecode_decBusy (reply : Option RecordBits) : (s.endDecode reply).decBusy = false := rfl
@[simp] theorem State.endDecode_decAcc (reply : Option RecordBits) : (s.endDecode reply).decAcc = s.decAcc := rfl
@[simp] theorem State.endDecode_decUpc (reply : Option RecordBits) : (s.endDecode reply).decUpc = s.decUpc := rfl
@[simp] theorem State.endDecode_decK (reply : Option RecordBits) : (s.endDecode reply).decK = s.decK := rfl
@[simp] theorem State.endDecode_cmd (reply : Option RecordBits) : (s.endDecode reply).cmd = s.cmd := rfl
@[simp] theorem State.endDecode_recIn (reply : Option RecordBits) : (s.endDecode reply).recIn = s.recIn := rfl
@[simp] theorem State.endDecode_trainIn (reply : Option RecordBits) : (s.endDecode reply).trainIn = s.trainIn := rfl
@[simp] theorem State.endDecode_encReply (reply : Option RecordBits) : (s.endDecode reply).encReply = s.encReply := rfl
@[simp] theorem State.endDecode_decReply (reply : Option RecordBits) : (s.endDecode reply).decReply = some reply := rfl
@[simp] theorem State.endDecode_wire (reply : Option RecordBits) : (s.endDecode reply).wire = s.wire := rfl
@[simp] theorem State.endDecode_sched (reply : Option RecordBits) : (s.endDecode reply).sched = s.sched := rfl
@[simp] theorem State.endDecode_resetReq (reply : Option RecordBits) : (s.endDecode reply).resetReq = s.resetReq := rfl

@[simp] theorem State.emitSym_eq (y : Sym) : s.emitSym y = s.emit (symPair s.rom y) := rfl

/-- Two emissions in a row append in order (R57, R58). -/
theorem State.emit_emit (p q : Pair) : (s.emit p).emit q = { s with sinkTrain := s.sinkTrain ++ [p, q] } := by
  simp [State.emit]

end Sys2Proof.Machine
end

