-- ==== Sys2Proof/Laws/Decoder.lean ====
section
/-! SUPPORT. What the decoder's shared operations do, each said once: EXPECT, one bit, and the 32 sub-steps of BYTES in closed
form. -/

namespace Sys2Proof.Machine

/-- EXPECT either matches and advances the cursor, or changes nothing (R121). -/
theorem State.expect_cases (s : State) (m : Matcher) (p : Pair) :
    (s.sees m p = true ∧ s.expect m p = (true, s.advanceCur)) ∨ (s.sees m p = false ∧ s.expect m p = (false, s)) := by
  unfold State.expect
  cases s.sees m p <;> simp

@[simp] theorem finishUop_true (s : State) : finishUop (true, s) = s.decAdvance := rfl

@[simp] theorem finishUop_false (s : State) : finishUop (false, s) = s.endDecode none := rfl

@[simp] theorem finishBit_true (s : State) : finishBit (true, s) = s := rfl

@[simp] theorem finishBit_false (s : State) : finishBit (false, s) = s.endDecode none := rfl

theorem State.sees_some {s : State} {q : Pair} (h : s.srcTrain[s.srcCur]? = some q) (m : Matcher) (p : Pair) :
    s.sees m p = m q p := by
  simp [State.sees, h]

theorem State.sees_none {s : State} (h : s.srcTrain[s.srcCur]? = none) (m : Matcher) (p : Pair) : s.sees m p = false := by
  simp [State.sees, h]

/-- Whether the Pair `n` places after the cursor matches `p`. -/
def State.seesAt (s : State) (m : Matcher) (n : Nat) (p : Pair) : Bool :=
  match s.srcTrain[s.srcCur + n]? with
  | some q => m q p
  | none => false

/-- Whether the Pair `n` places after the cursor decodes as a bit: it matches ONE or ZERO (R124). -/
def State.bitAt (s : State) (m : Matcher) (n : Nat) : Bool :=
  s.seesAt m n (symPair s.rom .one) || s.seesAt m n (symPair s.rom .zero)

@[simp] theorem State.seesAt_zero (s : State) (m : Matcher) (p : Pair) : s.seesAt m 0 p = s.sees m p := rfl

/-- One bit: it takes the Pair at the cursor as ONE or else as ZERO, or fails and changes nothing (R124). -/
theorem State.takeBit_eq (s : State) (m : Matcher) (a b : Nat) :
    s.takeBit m a b =
      if s.bitAt m 0 then (true, s.advanceCur.setAccBit a b (s.sees m (symPair s.rom .one))) else (false, s) := by
  unfold State.takeBit State.bitAt
  simp only [State.seesAt_zero]
  obtain ⟨h1, e1⟩ | ⟨h1, e1⟩ := s.expect_cases m (symPair s.rom .one)
  · simp [e1, h1]
  · obtain ⟨h0, e0⟩ | ⟨h0, e0⟩ := s.expect_cases m (symPair s.rom .zero) <;> simp [e1, h1, e0, h0]

/-- DEC.acc after the first `n` bits of a block, bit `k` being whether the Pair `k` places after the cursor matches ONE. Irreducible,
so that no proof unfolds 32 writes by accident: `State.blockAcc_spec` says what it holds. -/
@[irreducible] def State.blockAcc (s : State) (m : Matcher) (lo : BitVec 5) (n : Nat) : Memory :=
  (List.range n).foldl
    (fun mem k => mem.writeBit (blockByte lo k) (blockBit k) (s.seesAt m k (symPair s.rom .one))) s.decAcc

/-- The state after the first `n` bits of a block. -/
def State.bitsTaken (s : State) (m : Matcher) (lo : BitVec 5) (n : Nat) : State :=
  { s with
    srcCur := s.srcCur + n
    decAcc := s.blockAcc m lo n
    decK := if n = 0 then s.decK else BitVec.ofNat 5 (n - 1) }

@[simp] theorem State.bitsTaken_rom (s : State) (m : Matcher) (lo : BitVec 5) (n : Nat) :
    (s.bitsTaken m lo n).rom = s.rom := rfl
@[simp] theorem State.bitsTaken_sinkCarrier (s : State) (m : Matcher) (lo : BitVec 5) (n : Nat) :
    (s.bitsTaken m lo n).sinkCarrier = s.sinkCarrier := rfl
@[simp] theorem State.bitsTaken_sinkTrain (s : State) (m : Matcher) (lo : BitVec 5) (n : Nat) :
    (s.bitsTaken m lo n).sinkTrain = s.sinkTrain := rfl
@[simp] theorem State.bitsTaken_srcTrain (s : State) (m : Matcher) (lo : BitVec 5) (n : Nat) :
    (s.bitsTaken m lo n).srcTrain = s.srcTrain := rfl
@[simp] theorem State.bitsTaken_srcCur (s : State) (m : Matcher) (lo : BitVec 5) (n : Nat) :
    (s.bitsTaken m lo n).srcCur = s.srcCur + n := rfl
@[simp] theorem State.bitsTaken_encBusy (s : State) (m : Matcher) (lo : BitVec 5) (n : Nat) :
    (s.bitsTaken m lo n).encBusy = s.encBusy := rfl
@[simp] theorem State.bitsTaken_encRec (s : State) (m : Matcher) (lo : BitVec 5) (n : Nat) :
    (s.bitsTaken m lo n).encRec = s.encRec := rfl
@[simp] theorem State.bitsTaken_encUpc (s : State) (m : Matcher) (lo : BitVec 5) (n : Nat) :
    (s.bitsTaken m lo n).encUpc = s.encUpc := rfl
@[simp] theorem State.bitsTaken_encK (s : State) (m : Matcher) (lo : BitVec 5) (n : Nat) :
    (s.bitsTaken m lo n).encK = s.encK := rfl
@[simp] theorem State.bitsTaken_decBusy (s : State) (m : Matcher) (lo : BitVec 5) (n : Nat) :
    (s.bitsTaken m lo n).decBusy = s.decBusy := rfl
@[simp] theorem State.bitsTaken_decAcc (s : State) (m : Matcher) (lo : BitVec 5) (n : Nat) :
    (s.bitsTaken m lo n).decAcc = s.blockAcc m lo n := rfl
@[simp] theorem State.bitsTaken_decUpc (s : State) (m : Matcher) (lo : BitVec 5) (n : Nat) :
    (s.bitsTaken m lo n).decUpc = s.decUpc := rfl
@[simp] theorem State.bitsTaken_decK (s : State) (m : Matcher) (lo : BitVec 5) (n : Nat) :
    (s.bitsTaken m lo n).decK = if n = 0 then s.decK else BitVec.ofNat 5 (n - 1) := rfl
@[simp] theorem State.bitsTaken_cmd (s : State) (m : Matcher) (lo : BitVec 5) (n : Nat) :
    (s.bitsTaken m lo n).cmd = s.cmd := rfl
@[simp] theorem State.bitsTaken_recIn (s : State) (m : Matcher) (lo : BitVec 5) (n : Nat) :
    (s.bitsTaken m lo n).recIn = s.recIn := rfl
@[simp] theorem State.bitsTaken_trainIn (s : State) (m : Matcher) (lo : BitVec 5) (n : Nat) :
    (s.bitsTaken m lo n).trainIn = s.trainIn := rfl
@[simp] theorem State.bitsTaken_encReply (s : State) (m : Matcher) (lo : BitVec 5) (n : Nat) :
    (s.bitsTaken m lo n).encReply = s.encReply := rfl
@[simp] theorem State.bitsTaken_decReply (s : State) (m : Matcher) (lo : BitVec 5) (n : Nat) :
    (s.bitsTaken m lo n).decReply = s.decReply := rfl
@[simp] theorem State.bitsTaken_wire (s : State) (m : Matcher) (lo : BitVec 5) (n : Nat) :
    (s.bitsTaken m lo n).wire = s.wire := rfl
@[simp] theorem State.bitsTaken_sched (s : State) (m : Matcher) (lo : BitVec 5) (n : Nat) :
    (s.bitsTaken m lo n).sched = s.sched := rfl
@[simp] theorem State.bitsTaken_resetReq (s : State) (m : Matcher) (lo : BitVec 5) (n : Nat) :
    (s.bitsTaken m lo n).resetReq = s.resetReq := rfl

theorem State.blockAcc_zero (s : State) (m : Matcher) (lo : BitVec 5) : s.blockAcc m lo 0 = s.decAcc := by
  simp [State.blockAcc]

theorem State.blockAcc_succ (s : State) (m : Matcher) (lo : BitVec 5) (n : Nat) :
    s.blockAcc m lo (n + 1) =
      (s.blockAcc m lo n).writeBit (blockByte lo n) (blockBit n) (s.seesAt m n (symPair s.rom .one)) := by
  simp [State.blockAcc, List.range_succ]

theorem State.takeBit_bitsTaken (s : State) (m : Matcher) (lo : BitVec 5) (n : Nat) :
    ((s.bitsTaken m lo n).setDecK n).takeBit m (blockByte lo n) (blockBit n) =
      if s.bitAt m n then (true, s.bitsTaken m lo (n + 1)) else (false, (s.bitsTaken m lo n).setDecK n) := by
  rw [State.takeBit_eq]
  have h : ((s.bitsTaken m lo n).setDecK n).bitAt m 0 = s.bitAt m n := rfl
  rw [h]
  cases s.bitAt m n
  · rfl
  · simp only [if_true]
    congr 1
    simp only [State.setAccBit, State.advanceCur, State.setDecK, State.bitsTaken, State.blockAcc_succ]
    simp only [Nat.add_assoc, Nat.add_one_ne_zero, if_false, Nat.add_sub_cancel]
    rfl

/-- The sub-steps of BYTES from bit `n` on, in closed form: all the bits decode, or the first that does not ends them. -/
theorem decBlockFrom_eq (s : State) (m : Matcher) (lo : BitVec 5) (len n : Nat) :
    decBlockFrom m lo (List.range' n len) (s.bitsTaken m lo n) =
      match (List.range' n len).find? fun k => !s.bitAt m k with
      | none => (true, s.bitsTaken m lo (n + len))
      | some i => (false, (s.bitsTaken m lo i).setDecK i) := by
  induction len generalizing n with
  | zero => rfl
  | succ len ih =>
    rw [List.range'_succ, decBlockFrom, State.takeBit_bitsTaken, List.find?_cons]
    cases h : s.bitAt m n
    · rfl
    · have e : n + (len + 1) = n + 1 + len := by omega
      simp only [if_true, Bool.not_true]
      rw [ih, e]

/-- `BYTES lo` in closed form (R125): either all 32 Pairs from the cursor on decode as bits, or the first that does not fails it. -/
theorem decBlock_eq (s : State) (m : Matcher) (lo : BitVec 5) :
    decBlock m lo s =
      match (List.range 32).find? fun k => !s.bitAt m k with
      | none => (true, s.bitsTaken m lo 32)
      | some i => (false, (s.bitsTaken m lo i).setDecK i) := by
  have h := decBlockFrom_eq s m lo 32 0
  rw [List.range_eq_range']
  simpa [State.bitsTaken, State.blockAcc, decBlock, List.range_eq_range'] using h

/-- DEC.acc stays canonical through a block, its first `n` bits are the ones decoded, and every other bit is as before (R125). -/
theorem State.blockAcc_spec (s : State) (m : Matcher) (lo : BitVec 5) (hlo : blockLegal lo = true) (hw : s.decAcc.wf = true)
    (n : Nat) (hn : n ≤ 32) :
    (s.blockAcc m lo n).wf = true ∧
    ∀ j, (s.blockAcc m lo n).readBit j =
      if 8 * lo.toNat ≤ j ∧ j < 8 * lo.toNat + n then s.seesAt m (j - 8 * lo.toNat) (symPair s.rom .one)
      else s.decAcc.readBit j := by
  have h12 : lo.toNat ≤ 12 := by revert lo; decide
  induction n with
  | zero =>
    rw [State.blockAcc_zero]
    exact ⟨hw, fun j => by rw [if_neg (by omega)]⟩
  | succ n ih =>
    obtain ⟨h1, h2⟩ := ih (by omega)
    have ha : blockByte lo n < 16 := by unfold blockByte; omega
    have hb : blockBit n < 8 := Nat.mod_lt _ (by omega)
    have hj : 8 * blockByte lo n + blockBit n = 8 * lo.toNat + n := by unfold blockByte blockBit; omega
    rw [State.blockAcc_succ]
    refine ⟨Memory.wf_writeBit h1 ha _ _, fun j => ?_⟩
    rw [Memory.readBit_writeBit h1 hb, hj, h2]
    by_cases hjn : j = 8 * lo.toNat + n
    · subst hjn
      rw [if_pos rfl, if_pos (by omega)]
      congr 1; omega
    · rw [if_neg hjn]
      by_cases hin : 8 * lo.toNat ≤ j ∧ j < 8 * lo.toNat + n
      · rw [if_pos hin, if_pos (by omega)]
      · rw [if_neg hin, if_neg (by omega)]

end Sys2Proof.Machine
end

