-- ==== Sys2Proof/Laws/Encoder.lean ====
section
/-! SUPPORT. What the encoder's shared operations do, each said once: the 32 sub-steps of BYTES, the footer, and the symbols of a
block as a list over its 32 bits. -/

namespace Sys2Proof.Machine

/-- The symbol that sub-step `k` of `BYTES lo` emits (R81, R103). -/
def encBlockSym (rec : Memory) (lo : BitVec 5) (k : Nat) : Sym :=
  bitSym ((rec.read (blockByte lo k)).getLsbD (blockBit k))

/-- One sub-step of BYTES: it sets ENC.k and emits one symbol (R103, R104). -/
theorem encBlockStep_eq (lo : BitVec 5) (s : State) (k : Nat) :
    encBlockStep lo s k =
      { s with sinkTrain := s.sinkTrain ++ [symPair s.rom (encBlockSym s.encRec lo k)], encK := BitVec.ofNat 5 k } := rfl

theorem foldl_encBlockStep (lo : BitVec 5) (s : State) (n : Nat) :
    (List.range (n + 1)).foldl (encBlockStep lo) s =
      { s with
        sinkTrain := s.sinkTrain ++ (List.range (n + 1)).map fun k => symPair s.rom (encBlockSym s.encRec lo k)
        encK := BitVec.ofNat 5 n } := by
  induction n with
  | zero => rfl
  | succ n ih =>
    rw [List.range_succ, List.foldl_append, ih, List.foldl_cons, List.foldl_nil, encBlockStep_eq]
    simp

/-- `BYTES lo` emits 32 symbols and leaves ENC.k at 31; it changes nothing else (R103). -/
theorem encBlock_eq (lo : BitVec 5) (s : State) :
    encBlock lo s =
      { s with
        sinkTrain := s.sinkTrain ++ (List.range 32).map fun k => symPair s.rom (encBlockSym s.encRec lo k)
        encK := 31 } :=
  foldl_encBlockStep lo s 31

/-- Emitting a list of symbols appends their canonical Pairs in order and changes nothing else (R57, R58). -/
theorem foldl_emitSym (ys : List Sym) (s : State) :
    ys.foldl State.emitSym s = { s with sinkTrain := s.sinkTrain ++ ys.map (symPair s.rom) } := by
  induction ys generalizing s with
  | nil => simp
  | cons y ys ih => rw [List.foldl_cons, ih]; simp [State.emitSym, State.emit]

/-- The 32 symbols of a block, bit by bit in ascending linear bit address (R52, R81). -/
theorem blockSyms_eq (r : RecordBits) (lo : Nat) :
    blockSyms r lo = (List.range 32).map fun k => bitSym (recBit r (8 * lo + k)) := by
  have key : ∀ a, byteSyms (recByte r (lo + a)) = (List.range 8).map fun b => bitSym (recBit r (8 * lo + (8 * a + b))) := by
    intro a
    refine List.map_congr_left fun b hb => ?_
    have hb : b < 8 := by simpa using hb
    have h1 : (8 * lo + (8 * a + b)) / 8 = lo + a := by omega
    have h2 : (8 * lo + (8 * a + b)) % 8 = b := by omega
    rw [recBit, h1, h2]
  rw [blockSyms, List.flatMap_congr fun a _ => key a]
  rfl

/-- The symbols BYTES emits are the symbols of the block of the packed record (R81, R103). -/
theorem map_encBlockSym (rec : Memory) (lo : BitVec 5) (hlo : blockLegal lo = true) :
    (List.range 32).map (encBlockSym rec lo) = blockSyms rec.pack lo.toNat := by
  rw [blockSyms_eq]
  have h12 : lo.toNat ≤ 12 := by revert lo; decide
  refine List.map_congr_left fun k hk => ?_
  have hk : k < 32 := by simpa using hk
  rw [encBlockSym, recBit_eq, Memory.getLsbD_pack _ (by omega), Memory.readBit, blockByte, blockBit]
  congr 2
  · congr 1; omega
  · omega

end Sys2Proof.Machine
end

