-- ==== Sys2Proof/Laws/Schedule.lean ====
section
/-! SUPPORT. What a step can do, said once: the micro-operation a unit runs at each schedule index, and the inversion of a step. -/

namespace Sys2Proof.Machine

/-- The micro-operations of ENC_ROM (R86). -/
def encProgram : List Instr :=
  [.encCarrier, .encHdr, .encBytes 0, .encFooter, .encGap, .encBytes 4, .encGap2,
    .encHdr, .encBytes 8, .encFooter, .encGap, .encBytes 12, .encGap2, .encEnd]

/-- The micro-operations of DEC_ROM (R87). -/
def decProgram : List Instr :=
  [.decHdr, .decBytes 0, .decFooter, .decGap, .decBytes 4, .decGap2,
    .decHdr, .decBytes 8, .decFooter, .decGap, .decBytes 12, .decGap2, .decEnd]

/-- What a decoded word does under a dispatch, as data: the instruction, or the reason it is none. -/
theorem runWord_ok {ex : Instr → State → Host.Outcome State Fault Refusal} {c : Code} {i : Instr} (h : decode c = .ok i)
    (s : State) : runWord ex c s = ex i s := by
  unfold runWord; rw [h]

theorem decode_encRom (n : Nat) :
    (encRom[n]?).map (fun w => decode (.uop .enc w)) = (encProgram[n]?).map Except.ok := by
  have h : encRom.map (fun w => decode (.uop .enc w)) = encProgram.map Except.ok := by rfl
  rw [← List.getElem?_map, ← List.getElem?_map, h]

theorem decode_decRom (n : Nat) :
    (decRom[n]?).map (fun w => decode (.uop .dec w)) = (decProgram[n]?).map Except.ok := by
  have h : decRom.map (fun w => decode (.uop .dec w)) = decProgram.map Except.ok := by rfl
  rw [← List.getElem?_map, ← List.getElem?_map, h]

/-- Where a word stands in a schedule ROM is a question about its first 14 slots. -/
theorem standsAt_of_lt {u : UnitId} {w : BitVec 8} {i : Instr} {slots : List Nat} (hd : decode (.uop u w) = .ok i)
    (hs : ∀ n, n < 14 → ((unitRom u)[n]? = some w ↔ n ∈ slots)) (hl : ∀ n ∈ slots, n < 14) : StandsAt u w i slots := by
  have hlen : (unitRom u).length ≤ 14 := by cases u <;> decide
  refine ⟨hd, fun n => ⟨fun h => ?_, fun h => (hs n (hl n h)).2 h⟩⟩
  exact (hs n (lt_of_lt_of_le (List.getElem?_eq_some_iff.1 h).1 hlen)).1 h

/-- A move of ENC runs the micro-operation at its schedule index. -/
theorem unitCycle_enc (ex : Instr → State → Host.Outcome State Fault Refusal) (s : State) :
    unitCycle ex .enc s =
      match encProgram[s.encUpc.toNat]? with
      | some i => ex i s
      | none => .fault (.scheduleOverrun .enc) := by
  have h := decode_encRom s.encUpc.toNat
  unfold unitCycle State.unitWord
  change (match (encRom[s.encUpc.toNat]?).map (Code.uop .enc) with
    | some c => runWord ex c s
    | none => .fault (.scheduleOverrun .enc)) = _
  cases hw : encRom[s.encUpc.toNat]? with
  | none => rw [hw] at h; cases hp : encProgram[s.encUpc.toNat]? <;> simp_all
  | some w =>
    rw [hw] at h
    cases hp : encProgram[s.encUpc.toNat]? with
    | none => simp_all
    | some i =>
      rw [hp] at h
      simp only [Option.map_some, Option.some.injEq] at h ⊢
      exact runWord_ok h s

/-- A move of DEC runs the micro-operation at its schedule index. -/
theorem unitCycle_dec (ex : Instr → State → Host.Outcome State Fault Refusal) (s : State) :
    unitCycle ex .dec s =
      match decProgram[s.decUpc.toNat]? with
      | some i => ex i s
      | none => .fault (.scheduleOverrun .dec) := by
  have h := decode_decRom s.decUpc.toNat
  unfold unitCycle State.unitWord
  change (match (decRom[s.decUpc.toNat]?).map (Code.uop .dec) with
    | some c => runWord ex c s
    | none => .fault (.scheduleOverrun .dec)) = _
  cases hw : decRom[s.decUpc.toNat]? with
  | none => rw [hw] at h; cases hp : decProgram[s.decUpc.toNat]? <;> simp_all
  | some w =>
    rw [hw] at h
    cases hp : decProgram[s.decUpc.toNat]? with
    | none => simp_all
    | some i =>
      rw [hp] at h
      simp only [Option.map_some, Option.some.injEq] at h ⊢
      exact runWord_ok h s

/-- The state a unit moves from: the replies of the step before gone, the schedule input read once where both units are busy. -/
def State.afterPick (s : State) : State :=
  if s.encBusy && s.decBusy then State.takeReplies { s with sched := s.sched.tail } else s.takeReplies

theorem State.afterPick_eq (s : State) : ∃ l, s.afterPick = State.takeReplies { s with sched := l } := by
  unfold State.afterPick
  split
  · exact ⟨_, rfl⟩
  · exact ⟨s.sched, rfl⟩

/-- What a cycle does, by who moves. -/
theorem cycle_reset (ex : Instr → State → Host.Outcome State Fault Refusal) {s : State} (h : s.resetReq = true) :
    cycle ex s = .next s.applyReset := by
  simp [cycle, State.fetch, State.nextMover, h]

theorem cycle_host (ex : Instr → State → Host.Outcome State Fault Refusal) {s : State} (hr : s.resetReq = false)
    (hc : s.cmd ≠ 0) : cycle ex s = runWord ex (.cmd s.cmd) (State.takeReplies { s with cmd := 0 }) := by
  have hm : s.nextMover = .host := by
    unfold State.nextMover; rw [if_neg (by simp [hr]), if_pos hc]
  simp [cycle, State.fetch, State.issue, hm]

theorem cycle_wire (ex : Instr → State → Host.Outcome State Fault Refusal) {s : State} (hr : s.resetReq = false)
    (hc : s.cmd = 0) (hb : s.encBusy = false) {p : Pair} (hw : s.wire = some p) :
    cycle ex s = appendPair ex p (State.takeReplies { s with wire := none }) := by
  have hm : s.nextMover = .wire := by simp [State.nextMover, hr, hc, hb, hw]
  simp [cycle, State.fetch, State.issue, hm, hw]

/-- No reset, no command, and no append that could be served now. -/
def State.inputFree (s : State) : Prop :=
  s.resetReq = false ∧ s.cmd = 0 ∧ (s.wire.isSome && !s.encBusy) = false

theorem cycle_idle (ex : Instr → State → Host.Outcome State Fault Refusal) {s : State} (h : s.inputFree)
    (he : s.encBusy = false) (hd : s.decBusy = false) : cycle ex s = .next s.takeReplies := by
  obtain ⟨h1, h2, h3⟩ := h
  have hm : s.nextMover = .idle := by
    unfold State.nextMover; rw [if_neg (by simp [h1]), if_neg (by simp [h2]), if_neg (by simp [h3]), he, hd]
  simp [cycle, State.fetch, State.issue, hm]

/-- The unit that moves where no input does. -/
theorem nextMover_unit {s : State} (h : s.inputFree) (hb : s.encBusy = true ∨ s.decBusy = true) :
    s.nextMover = .unit (if s.encBusy then if s.decBusy then s.sched.headD .enc else .enc else .dec) := by
  obtain ⟨h1, h2, h3⟩ := h
  unfold State.nextMover
  rw [if_neg (by simp [h1]), if_neg (by simp [h2]), if_neg (by simp [h3])]
  cases he : s.encBusy <;> cases hd : s.decBusy <;> simp_all

theorem cycle_unit (ex : Instr → State → Host.Outcome State Fault Refusal) {s : State} {u : UnitId}
    (h : s.nextMover = .unit u) : cycle ex s = unitCycle ex u s.afterPick := by
  have hw : s.afterPick.unitWord u = s.unitWord u := by
    obtain ⟨l, e⟩ := s.afterPick_eq; rw [e]; cases u <;> rfl
  have hi : s.issue = s.afterPick := by simp [State.issue, h, State.afterPick]
  unfold cycle unitCycle State.fetch
  rw [h, hw, hi]
  cases hx : s.unitWord u <;> simp [hx]

theorem symOfPair_some {rom : TimingRom} {p : Pair} {y : Sym} (h : symOfPair rom p = some y) : symPair rom y = p := by
  simpa using List.find?_some h

/-- A symbol's instruction emits its Pair, under every matcher. -/
theorem execUnder_symInstr (m : Matcher) (y : Sym) (s : State) : execUnder m (symInstr y) s = .next (s.emitSym y) := by
  cases y <;> rfl

/-- Whatever the Pair, symbol or not, the sink connection appends it and changes nothing else (R57, R157). -/
theorem appendPair_eq (m : Matcher) (p : Pair) (s : State) : appendPair (execUnder m) p s = .next (s.emit p) := by
  unfold appendPair
  cases h : symOfPair s.rom p with
  | none => rfl
  | some y => simp only [execUnder_symInstr, State.emitSym, symOfPair_some h]

/-- What a step can do when it answers a next state, the replies of the step before gone: a reset, nothing, a command that starts a transaction on an idle unit, the
Pair at the sink connection with no ENCODE running, or one move of a busy unit. -/
theorem cycle_cases {m : Matcher} {s t : State} (h : stepUnder m s = .next t) :
    (s.resetReq = true ∧ t = s.applyReset) ∨
    t = s.takeReplies ∨
    (s.encBusy = false ∧ t = State.startEncode (State.takeReplies { s with cmd := 0 })) ∨
    (s.decBusy = false ∧ t = State.startDecode (State.takeReplies { s with cmd := 0 })) ∨
    (s.encBusy = false ∧ ∃ p, s.wire = some p ∧ t = State.emit (State.takeReplies { s with wire := none }) p) ∨
    (s.encBusy = true ∧ ∃ l, unitStep m .enc (State.takeReplies { s with sched := l }) = .next t) ∨
    (s.decBusy = true ∧ ∃ l, unitStep m .dec (State.takeReplies { s with sched := l }) = .next t) := by
  unfold stepUnder at h
  by_cases hr : s.resetReq = true
  · rw [cycle_reset _ hr] at h; cases h; exact .inl ⟨hr, rfl⟩
  have hr : s.resetReq = false := by simpa using hr
  by_cases hc : s.cmd = 0
  · by_cases hw : (s.wire.isSome && !s.encBusy) = true
    · obtain ⟨p, hw⟩ : ∃ p, s.wire = some p := by
        cases hs : s.wire <;> simp_all
      have hb : s.encBusy = false := by cases hs : s.encBusy <;> simp_all
      rw [cycle_wire _ hr hc hb hw, appendPair_eq] at h
      cases h
      exact .inr (.inr (.inr (.inr (.inl ⟨hb, p, hw, rfl⟩))))
    · have hf : s.inputFree := ⟨hr, hc, by simpa using hw⟩
      by_cases hb : s.encBusy = true ∨ s.decBusy = true
      · have hm := nextMover_unit hf hb
        rw [cycle_unit _ hm] at h
        obtain ⟨l, e⟩ := s.afterPick_eq
        rw [e] at h
        cases hu : (if s.encBusy then if s.decBusy then s.sched.headD .enc else .enc else UnitId.dec) with
        | enc =>
          rw [hu] at h
          have : s.encBusy = true := by
            by_contra hne; simp [hne] at hu
          exact .inr (.inr (.inr (.inr (.inr (.inl ⟨this, l, h⟩)))))
        | dec =>
          rw [hu] at h
          have : s.decBusy = true := by
            by_contra hne
            have he : s.encBusy = true := by simpa [hne] using hb
            simp [hne, he] at hu
          exact .inr (.inr (.inr (.inr (.inr (.inr ⟨this, l, h⟩)))))
      · have he : s.encBusy = false := by cases hs : s.encBusy <;> simp_all
        have hd : s.decBusy = false := by cases hs : s.decBusy <;> simp_all
        rw [cycle_idle _ hf he hd] at h; cases h; exact .inr (.inl rfl)
  · rw [cycle_host _ hr hc] at h
    have four : s.cmd = 0 ∨ s.cmd = 1 ∨ s.cmd = 2 ∨ s.cmd = 3 := by
      generalize s.cmd = c; revert c; decide
    obtain h0 | h1 | h2 | h3 := four
    · exact absurd h0 hc
    · rw [h1, runWord_ok (show decode (.cmd 1) = .ok .encode from rfl)] at h
      change (if s.encBusy then _ else _) = _ at h
      cases hb : s.encBusy <;> simp only [hb] at h
      · cases h; exact .inr (.inr (.inl ⟨rfl, rfl⟩))
      · cases h
    · rw [h2, runWord_ok (show decode (.cmd 2) = .ok .decode from rfl)] at h
      change (if s.decBusy then _ else _) = _ at h
      cases hb : s.decBusy <;> simp only [hb] at h
      · cases h; exact .inr (.inr (.inr (.inl ⟨rfl, rfl⟩)))
      · cases h
    · rw [h3] at h; cases h

end Sys2Proof.Machine
end

