-- ==== Sys2Proof/Laws/Moves.lean ====
section
/-! SUPPORT. One move of each unit in closed form: what ENC emits at each schedule index, and how far DEC gets at each. -/

namespace Sys2Proof.Machine

theorem upc_succ {x : BitVec 4} (h : x.toNat < 13) : (x + 1).toNat = x.toNat + 1 := by
  revert x; decide

/-! ### The encoder -/

/-- The symbols ENC emits at slot `n` of its schedule (R83, R86). -/
def encSegment (rom : TimingRom) (r : RecordBits) : Nat → List Sym
  | 1 => [.hdr]
  | 2 => blockSyms r 0
  | 3 => footerSyms rom
  | 4 => [.gap]
  | 5 => blockSyms r 4
  | 6 => [.gap2]
  | 7 => [.hdr]
  | 8 => blockSyms r 8
  | 9 => footerSyms rom
  | 10 => [.gap]
  | 11 => blockSyms r 12
  | 12 => [.gap2]
  | _ => []

@[simp] theorem length_blockSyms (r : RecordBits) (lo : Nat) : (blockSyms r lo).length = 32 := by
  simp [blockSyms_eq]

@[simp] theorem length_footerSyms (rom : TimingRom) : (footerSyms rom).length = 3 := rfl

/-- The Pairs of the frame before the next slot are those before this slot followed by this slot's own (R83, R86). -/
theorem take_encPairsBefore (rom : TimingRom) (r : RecordBits) {n : Nat} (hn : n < 13) :
    (frame rom r).take (encPairsBefore (n + 1)) =
      (frame rom r).take (encPairsBefore n) ++ (encSegment rom r n).map (symPair rom) := by
  unfold frame
  simp only [← List.map_take, ← List.map_append]
  congr 1
  have e : frameSyms rom r = [Sym.hdr] ++ (blockSyms r 0 ++ (footerSyms rom ++ ([Sym.gap] ++ (blockSyms r 4 ++
      ([Sym.gap2] ++ ([Sym.hdr] ++ (blockSyms r 8 ++ (footerSyms rom ++ ([Sym.gap] ++ (blockSyms r 12 ++
      [Sym.gap2])))))))))) := by
    simp [frameSyms, halfSyms]
  rw [e]
  interval_cases n <;> simp only [encPairsBefore, encSegment] <;>
    simp [List.take_append, footerSyms, List.take_of_length_le]

/-- ENC's move at slots 0 to 12: the slot's symbols go to the sink, CARRIER sets the carrier, BYTES leaves ENC.k at 31, the schedule
index advances, and nothing else changes (R101 to R107). -/
theorem unitStep_enc_eq (m : Matcher) (s : State) (hn : s.encUpc.toNat < 13) :
    unitStep m .enc s =
      .next { s with
        encUpc := s.encUpc + 1
        encK := if s.encUpc.toNat ∈ [2, 5, 8, 11] then 31 else s.encK
        sinkCarrier := if s.encUpc.toNat = 0 then some s.rom.carrierHz else s.sinkCarrier
        sinkTrain := s.sinkTrain ++ (encSegment s.rom s.encRec.pack s.encUpc.toNat).map (symPair s.rom) } := by
  have hx : ∀ lo : BitVec 5, blockLegal lo = true → execUnder m (.encBytes lo) s =
      .next { s with
        encUpc := s.encUpc + 1
        encK := 31
        sinkTrain := s.sinkTrain ++ (blockSyms s.encRec.pack lo.toNat).map (symPair s.rom) } := by
    intro lo hl
    simp only [execUnder, exec, execEncBytes, hl, if_true, encBlock_eq, State.encAdvance, ← map_encBlockSym _ _ hl,
      List.map_map, Function.comp_def]
  have hf : execUnder m .encFooter s =
      .next { s with encUpc := s.encUpc + 1, sinkTrain := s.sinkTrain ++ (footerSyms s.rom).map (symPair s.rom) } := by
    simp only [execUnder, exec, execEncFooter, foldl_emitSym, State.encAdvance]
  have hc : execUnder m .encCarrier s =
      .next { s with encUpc := s.encUpc + 1, sinkCarrier := some s.rom.carrierHz } := rfl
  have hy : ∀ i y, (i = .encHdr ∧ y = .hdr) ∨ (i = .encGap ∧ y = .gap) ∨ (i = .encGap2 ∧ y = .gap2) → execUnder m i s =
      .next { s with encUpc := s.encUpc + 1, sinkTrain := s.sinkTrain ++ [symPair s.rom y] } := by
    rintro i y (⟨rfl, rfl⟩ | ⟨rfl, rfl⟩ | ⟨rfl, rfl⟩) <;> rfl
  unfold unitStep
  rw [unitCycle_enc]
  obtain ⟨n, e⟩ : ∃ n, s.encUpc.toNat = n := ⟨_, rfl⟩
  simp only [e] at *
  interval_cases n
  · change execUnder m .encCarrier s = _; rw [hc]; simp [encSegment]
  · change execUnder m .encHdr s = _; rw [hy _ .hdr (by simp)]; simp [encSegment]
  · change execUnder m (.encBytes 0) s = _; rw [hx _ rfl]; simp [encSegment]
  · change execUnder m .encFooter s = _; rw [hf]; simp [encSegment]
  · change execUnder m .encGap s = _; rw [hy _ .gap (by simp)]; simp [encSegment]
  · change execUnder m (.encBytes 4) s = _; rw [hx _ rfl]; simp [encSegment]
  · change execUnder m .encGap2 s = _; rw [hy _ .gap2 (by simp)]; simp [encSegment]
  · change execUnder m .encHdr s = _; rw [hy _ .hdr (by simp)]; simp [encSegment]
  · change execUnder m (.encBytes 8) s = _; rw [hx _ rfl]; simp [encSegment]
  · change execUnder m .encFooter s = _; rw [hf]; simp [encSegment]
  · change execUnder m .encGap s = _; rw [hy _ .gap (by simp)]; simp [encSegment]
  · change execUnder m (.encBytes 12) s = _; rw [hx _ rfl]; simp [encSegment]
  · change execUnder m .encGap2 s = _; rw [hy _ .gap2 (by simp)]; simp [encSegment]

/-- ENC's move at slot 13 ends the transaction (R108). -/
theorem unitStep_enc_end (m : Matcher) {s : State} (hn : s.encUpc.toNat = 13) :
    unitStep m .enc s = .next s.endEncode := by
  unfold unitStep; rw [unitCycle_enc, hn]; rfl

/-! ### The decoder -/

/-- Whether the Pair at index `i` of a train exists and passes at position `i` of the frame. -/
def passAt (m : Matcher) (rom : TimingRom) (train : Train) (i : Nat) : Bool :=
  match train[i]? with
  | some q => (slotAt rom i).passes m rom q
  | none => false

/-- The value of data bit `j` in a train: whether its Pair matches ONE (R124). -/
def valueAt (m : Matcher) (rom : TimingRom) (train : Train) (j : Nat) : Bool :=
  match train[dataIndex j]? with
  | some q => m q (symPair rom .one)
  | none => false

/-- DEC has passed the Pairs from index `a` up to `b` and moved on by one slot; DEC.acc holds the data bits among them. -/
structure SegmentPassed (m : Matcher) (s t : State) (a b : Nat) : Prop where
  passes : ∀ i, a ≤ i → i < b → passAt m s.rom s.srcTrain i = true
  cur : t.srcCur = b
  upc : t.decUpc = s.decUpc + 1
  busy : t.decBusy = s.decBusy
  train : t.srcTrain = s.srcTrain
  rom : t.rom = s.rom
  wf : t.decAcc.wf = true
  bits : ∀ j, j < 128 → t.decAcc.readBit j =
    if a ≤ dataIndex j ∧ dataIndex j < b then valueAt m s.rom s.srcTrain j else s.decAcc.readBit j

/-- DEC met a Pair from index `a` up to `b` that does not pass, and the decode has ended with the reply none (R133). -/
structure SegmentFailed (m : Matcher) (s t : State) (a b : Nat) : Prop where
  fails : ∃ i, a ≤ i ∧ i < b ∧ passAt m s.rom s.srcTrain i = false
  low : a ≤ t.srcCur
  cur : t.srcCur < b
  busy : t.decBusy = false
  reply : t.decReply = some none
  wf : t.decAcc.wf = true
  rom : t.rom = s.rom

theorem bits_of_no_data {a b : Nat} (h : ∀ j, j < 128 → ¬(a ≤ dataIndex j ∧ dataIndex j < b)) (m : Matcher) (s t : State)
    (ha : t.decAcc = s.decAcc) (j : Nat) (hj : j < 128) :
    t.decAcc.readBit j =
      if a ≤ dataIndex j ∧ dataIndex j < b then valueAt m s.rom s.srcTrain j else s.decAcc.readBit j := by
  rw [if_neg (h j hj), ha]

/-- One framing expectation at position `a` (R123, R128, R129). -/
theorem segment_framing (m : Matcher) (s : State) (a : Nat) (y : Sym) (hc : s.srcCur = a) (hw : s.decAcc.wf = true)
    (hs : ∀ rom, slotAt rom a = .framing y) (hd : ∀ j, j < 128 → ¬(a ≤ dataIndex j ∧ dataIndex j < a + 1)) :
    SegmentPassed m s (finishUop (s.expect m (symPair s.rom y))) a (a + 1) ∨
    SegmentFailed m s (finishUop (s.expect m (symPair s.rom y))) a (a + 1) := by
  have hp : passAt m s.rom s.srcTrain a = s.sees m (symPair s.rom y) := by
    unfold passAt State.sees; rw [hc, hs]; rfl
  obtain ⟨h1, e⟩ | ⟨h1, e⟩ := s.expect_cases m (symPair s.rom y) <;> rw [e]
  · exact .inl ⟨fun i h2 h3 => by rw [show i = a by omega, hp, h1], by simp [hc], rfl, rfl, rfl, rfl, hw,
      bits_of_no_data hd m s _ rfl⟩
  · exact .inr ⟨⟨a, by omega, by omega, by rw [hp, h1]⟩, by simp [hc], by simp [hc], rfl, rfl, hw, rfl⟩

/-- The three footer expectations at positions `a`, `a + 1`, `a + 2` (R127). -/
theorem segment_footer (m : Matcher) (s : State) (a : Nat) (hc : s.srcCur = a) (hw : s.decAcc.wf = true)
    (hs : ∀ rom : TimingRom, ∀ k, k < 3 → slotAt rom (a + k) = .framing (bitSym (rom.footerPattern.getLsbD k)))
    (hd : ∀ j, j < 128 → ¬(a ≤ dataIndex j ∧ dataIndex j < a + 3)) :
    SegmentPassed m s (finishUop (s.expectAll m ((footerSyms s.rom).map (symPair s.rom)))) a (a + 3) ∨
    SegmentFailed m s (finishUop (s.expectAll m ((footerSyms s.rom).map (symPair s.rom)))) a (a + 3) := by
  let p (k : Nat) : Pair := symPair s.rom (bitSym (s.rom.footerPattern.getLsbD k))
  change SegmentPassed m s (finishUop (s.expectAll m [p 0, p 1, p 2])) a (a + 3) ∨
    SegmentFailed m s (finishUop (s.expectAll m [p 0, p 1, p 2])) a (a + 3)
  have hp0 : passAt m s.rom s.srcTrain a = s.sees m (p 0) := by
    have e := hs s.rom 0 (by omega)
    rw [Nat.add_zero] at e
    unfold passAt State.sees; rw [hc, e]; rfl
  have hp1 : passAt m s.rom s.srcTrain (a + 1) = s.advanceCur.sees m (p 1) := by
    unfold passAt State.sees; simp only [State.advanceCur_srcCur, State.advanceCur_srcTrain]
    rw [hc, hs s.rom 1 (by omega)]; rfl
  have hp2 : passAt m s.rom s.srcTrain (a + 2) = s.advanceCur.advanceCur.sees m (p 2) := by
    unfold passAt State.sees; simp only [State.advanceCur_srcCur, State.advanceCur_srcTrain]
    rw [hc, hs s.rom 2 (by omega)]; rfl
  unfold State.expectAll
  obtain ⟨h0, e⟩ | ⟨h0, e⟩ := s.expect_cases m (p 0) <;> rw [e]
  · unfold State.expectAll
    obtain ⟨h1, e⟩ | ⟨h1, e⟩ := s.advanceCur.expect_cases m (p 1) <;> simp only [e]
    · unfold State.expectAll
      obtain ⟨h2, e⟩ | ⟨h2, e⟩ := s.advanceCur.advanceCur.expect_cases m (p 2) <;> simp only [e]
      · refine .inl ⟨fun i h3 h4 => ?_, by simp [State.expectAll, hc], rfl, rfl, rfl, rfl, hw,
          bits_of_no_data hd m s _ rfl⟩
        obtain h | h | h : i = a ∨ i = a + 1 ∨ i = a + 2 := by omega
        · rw [h, hp0, h0]
        · rw [h, hp1, h1]
        · rw [h, hp2, h2]
      · exact .inr ⟨⟨a + 2, by omega, by omega, by rw [hp2, h2]⟩, by simp [hc]; omega, by simp [hc], rfl, rfl, hw, rfl⟩
    · exact .inr ⟨⟨a + 1, by omega, by omega, by rw [hp1, h1]⟩, by simp [hc], by simp [hc], rfl, rfl, hw, rfl⟩
  · exact .inr ⟨⟨a, by omega, by omega, by rw [hp0, h0]⟩, by simp [hc], by simp [hc], rfl, rfl, hw, rfl⟩

/-- The 32 data bits of a block at positions `a` to `a + 31` (R125). -/
theorem segment_block (m : Matcher) (s : State) (a : Nat) (lo : BitVec 5) (hl : blockLegal lo = true) (hc : s.srcCur = a)
    (hw : s.decAcc.wf = true) (hs : ∀ rom k, k < 32 → slotAt rom (a + k) = .data (8 * lo.toNat + k))
    (hd : ∀ j, j < 128 →
      ((a ≤ dataIndex j ∧ dataIndex j < a + 32) ↔ (8 * lo.toNat ≤ j ∧ j < 8 * lo.toNat + 32)) ∧
      (8 * lo.toNat ≤ j ∧ j < 8 * lo.toNat + 32 → dataIndex j = a + (j - 8 * lo.toNat))) :
    SegmentPassed m s (finishUop (decBlock m lo s)) a (a + 32) ∨
    SegmentFailed m s (finishUop (decBlock m lo s)) a (a + 32) := by
  have hp : ∀ k, k < 32 → passAt m s.rom s.srcTrain (a + k) = s.bitAt m k := by
    intro k hk
    unfold passAt State.bitAt State.seesAt; rw [hc, hs _ k hk]
    cases s.srcTrain[a + k]? <;> rfl
  rw [decBlock_eq]
  cases hf : (List.range 32).find? fun k => !s.bitAt m k with
  | none =>
    rw [List.find?_eq_none] at hf
    have hall : ∀ k, k < 32 → s.bitAt m k = true := by
      intro k hk; have := hf k (by simpa using hk); simpa using this
    obtain ⟨w, b⟩ := s.blockAcc_spec m lo hl hw 32 (le_refl _)
    refine .inl ⟨fun i h1 h2 => ?_, by simp [hc], by simp, by simp, by simp, by simp, by simpa using w, fun j hj => ?_⟩
    · obtain ⟨k, rfl⟩ : ∃ k, i = a + k := ⟨i - a, by omega⟩
      rw [hp k (by omega), hall k (by omega)]
    · simp only [finishUop_true, State.decAdvance_decAcc, State.bitsTaken_decAcc]
      rw [b j]
      by_cases hin : 8 * lo.toNat ≤ j ∧ j < 8 * lo.toNat + 32
      · rw [if_pos hin, if_pos ((hd j hj).1.2 hin)]
        cases hq : s.srcTrain[a + (j - 8 * lo.toNat)]? <;> simp [State.seesAt, valueAt, hc, (hd j hj).2 hin, hq]
      · rw [if_neg hin, if_neg fun h => hin ((hd j hj).1.1 h)]
  | some i =>
    have hi := List.mem_of_find?_eq_some hf
    have hb := List.find?_some hf
    simp only [List.mem_range] at hi
    obtain ⟨w, _⟩ := s.blockAcc_spec m lo hl hw i (by omega)
    refine .inr ⟨⟨a + i, by omega, by omega, ?_⟩, by simp [hc], by simp [hc, hi], by simp, by simp, by simpa using w,
      by simp⟩
    rw [hp i hi]; simpa using hb

/-- DEC's move at slots 0 to 11, from the cursor where that slot begins: it passes the slot's Pairs, or the decode ends with the reply
none (R120 to R133). -/
theorem unitStep_dec_cases (m : Matcher) (s : State) (hn : s.decUpc.toNat < 12)
    (hc : s.srcCur = decPairsBefore s.decUpc.toNat) (hw : s.decAcc.wf = true) :
    ∃ t, unitStep m .dec s = .next t ∧
      (SegmentPassed m s t (decPairsBefore s.decUpc.toNat) (decPairsBefore (s.decUpc.toNat + 1)) ∨
        SegmentFailed m s t (decPairsBefore s.decUpc.toNat) (decPairsBefore (s.decUpc.toNat + 1))) := by
  unfold unitStep
  rw [unitCycle_dec]
  have noData : ∀ p ∈ [(0, 1), (33, 3), (36, 1), (69, 1), (70, 1), (103, 3), (106, 1), (139, 1)], ∀ j, j < 128 →
      ¬(p.1 ≤ dataIndex j ∧ dataIndex j < p.1 + p.2) := by decide +kernel
  have isData : ∀ p ∈ [(1, 0), (37, 32), (71, 64), (107, 96)], ∀ j, j < 128 →
      ((p.1 ≤ dataIndex j ∧ dataIndex j < p.1 + 32) ↔ (p.2 ≤ j ∧ j < p.2 + 32)) ∧
      (p.2 ≤ j ∧ j < p.2 + 32 → dataIndex j = p.1 + (j - p.2)) := by decide +kernel
  have dataSlot : ∀ rom, ∀ p ∈ [(1, 0), (37, 32), (71, 64), (107, 96)], ∀ k, k < 32 →
      slotAt rom (p.1 + k) = .data (p.2 + k) := by
    intro rom p hp k hk
    simp only [List.mem_cons, List.not_mem_nil, or_false] at hp
    rcases hp with rfl | rfl | rfl | rfl <;> (simp only; interval_cases k <;> rfl)
  have framing : ∀ (a : Nat) (y : Sym) i, (a, 1) ∈ [(0, 1), (33, 3), (36, 1), (69, 1), (70, 1), (103, 3), (106, 1), (139, 1)] →
      s.srcCur = a → (∀ rom, slotAt rom a = .framing y) →
      ((i = .decHdr ∧ y = .hdr) ∨ (i = .decGap ∧ y = .gap) ∨ (i = .decGap2 ∧ y = .gap2)) →
      ∃ t, execUnder m i s = .next t ∧ (SegmentPassed m s t a (a + 1) ∨ SegmentFailed m s t a (a + 1)) := by
    rintro a y i h1 h2 h3 (⟨rfl, rfl⟩ | ⟨rfl, rfl⟩ | ⟨rfl, rfl⟩) <;>
      exact ⟨_, rfl, segment_framing m s a _ h2 hw h3 (noData (a, 1) h1)⟩
  have footer : ∀ a, a = 33 ∨ a = 103 → s.srcCur = a →
      ∃ t, execUnder m .decFooter s = .next t ∧ (SegmentPassed m s t a (a + 3) ∨ SegmentFailed m s t a (a + 3)) := by
    rintro a (rfl | rfl) h2
    · exact ⟨_, rfl, segment_footer m s 33 h2 hw (by intro rom k hk; interval_cases k <;> rfl) (noData (33, 3) (by simp))⟩
    · exact ⟨_, rfl, segment_footer m s 103 h2 hw (by intro rom k hk; interval_cases k <;> rfl) (noData (103, 3) (by simp))⟩
  have block : ∀ (a : Nat) (lo : BitVec 5), blockLegal lo = true → s.srcCur = a →
      (a, 8 * lo.toNat) ∈ [(1, 0), (37, 32), (71, 64), (107, 96)] →
      ∃ t, execUnder m (.decBytes lo) s = .next t ∧ (SegmentPassed m s t a (a + 32) ∨ SegmentFailed m s t a (a + 32)) :=
    fun a lo hl h1 h2 => ⟨_, by simp only [execUnder, runDecBytes, hl, if_true],
      segment_block m s a lo hl h1 hw (fun rom k hk => dataSlot rom (a, 8 * lo.toNat) h2 k hk) (isData _ h2)⟩
  obtain ⟨n, e⟩ : ∃ n, s.decUpc.toNat = n := ⟨_, rfl⟩
  simp only [e] at *
  interval_cases n
  · exact framing 0 .hdr .decHdr (by simp) hc (fun _ => rfl) (by simp)
  · exact block 1 0 rfl hc (by decide)
  · exact footer 33 (by simp) hc
  · exact framing 36 .gap .decGap (by simp) hc (fun _ => rfl) (by simp)
  · exact block 37 4 rfl hc (by decide)
  · exact framing 69 .gap2 .decGap2 (by simp) hc (fun _ => rfl) (by simp)
  · exact framing 70 .hdr .decHdr (by simp) hc (fun _ => rfl) (by simp)
  · exact block 71 8 rfl hc (by decide)
  · exact footer 103 (by simp) hc
  · exact framing 106 .gap .decGap (by simp) hc (fun _ => rfl) (by simp)
  · exact block 107 12 rfl hc (by decide)
  · exact framing 139 .gap2 .decGap2 (by simp) hc (fun _ => rfl) (by simp)

/-- DEC's move at slot 12 replies with the packed accumulator (R130). -/
theorem unitStep_dec_end (m : Matcher) {s : State} (hn : s.decUpc.toNat = 12) :
    unitStep m .dec s = .next (s.endDecode (some s.decAcc.pack)) := by
  unfold unitStep; rw [unitCycle_dec, hn]; rfl

end Sys2Proof.Machine
end

