-- ==== Sys2Proof/Laws/PerInstr.lean ====
section
/-! SUPPORT. The family Layer: the word the encoder gives an instruction stands in the instruction's own layer (R70), one lemma per
constructor. -/

namespace Sys2Proof.Laws.Layer

/-- A word of the instruction, if it has one, is a word of its layer. -/
def Statement (i : Instr) : Prop := ∀ c, encode i = some c → c.layer = i.layer

theorem encode : Statement .encode := by rintro c ⟨⟩; rfl
theorem decode : Statement .decode := by rintro c ⟨⟩; rfl
theorem encCarrier : Statement .encCarrier := by rintro c ⟨⟩; rfl
theorem encHdr : Statement .encHdr := by rintro c ⟨⟩; rfl
theorem encBytes (lo : BitVec 5) : Statement (.encBytes lo) := by rintro c ⟨⟩; rfl
theorem encFooter : Statement .encFooter := by rintro c ⟨⟩; rfl
theorem encGap : Statement .encGap := by rintro c ⟨⟩; rfl
theorem encGap2 : Statement .encGap2 := by rintro c ⟨⟩; rfl
theorem encEnd : Statement .encEnd := by rintro c ⟨⟩; rfl
theorem decHdr : Statement .decHdr := by rintro c ⟨⟩; rfl
theorem decBytes (lo : BitVec 5) : Statement (.decBytes lo) := by rintro c ⟨⟩; rfl
theorem decFooter : Statement .decFooter := by rintro c ⟨⟩; rfl
theorem decGap : Statement .decGap := by rintro c ⟨⟩; rfl
theorem decGap2 : Statement .decGap2 := by rintro c ⟨⟩; rfl
theorem decEnd : Statement .decEnd := by rintro c ⟨⟩; rfl
theorem eBit (a b : Nat) : Statement (.eBit a b) := by rintro c ⟨⟩
theorem dBit (a b : Nat) : Statement (.dBit a b) := by rintro c ⟨⟩
theorem symZero : Statement .symZero := by rintro c ⟨⟩; rfl
theorem symOne : Statement .symOne := by rintro c ⟨⟩; rfl
theorem symHdr : Statement .symHdr := by rintro c ⟨⟩; rfl
theorem symGap : Statement .symGap := by rintro c ⟨⟩; rfl
theorem symGap2 : Statement .symGap2 := by rintro c ⟨⟩; rfl

end Sys2Proof.Laws.Layer
end

