-- ==== Sys2Proof/Tests/Slice0.lean ====
section
/-! SUPPORT. Tests: the well-formedness smoke, words written out from the spec's encodings, one small step per instruction, and for
every obligation with hypotheses a witness that meets them. Expected values are those of spec/30_encoding.md, the examples in the
rules, and spec/95_test_vectors.md. -/

namespace Sys2Proof.Tests

open Sys2Proof Sys2Proof.Machine

/-! ### Well-formedness: each check refuses an ill-formed term -/

theorem test_wf_refuses_block_addresses :
    ¬WellFormed (.encBytes 1) ∧ ¬WellFormed (.encBytes 16) ∧ ¬WellFormed (.decBytes 2) ∧ ¬WellFormed (.decBytes 31) := by decide

theorem test_wf_refuses_record_bits :
    ¬WellFormed (.eBit 16 0) ∧ ¬WellFormed (.eBit 0 8) ∧ ¬WellFormed (.dBit 16 7) ∧ ¬WellFormed (.dBit 15 8) := by decide

theorem test_wf_accepts :
    WellFormed (.encBytes 12) ∧ WellFormed (.decBytes 0) ∧ WellFormed (.eBit 15 7) ∧ WellFormed (.dBit 0 0) := by decide

/-! ### Words written out bit by bit from R72 to R78 and R86 to R90 -/

theorem test_decode_commands : decode (.cmd 0b01) = .ok .encode ∧ decode (.cmd 0b10) = .ok .decode := ⟨rfl, rfl⟩

theorem test_decode_enc_words :
    decode (.uop .enc 0b00000000) = .ok .encCarrier ∧ decode (.uop .enc 0b00100000) = .ok .encHdr ∧
    decode (.uop .enc 0b01001100) = .ok (.encBytes 12) ∧ decode (.uop .enc 0b01100000) = .ok .encFooter ∧
    decode (.uop .enc 0b10000000) = .ok .encGap ∧ decode (.uop .enc 0b10100000) = .ok .encGap2 ∧
    decode (.uop .enc 0b11000000) = .ok .encEnd := ⟨rfl, rfl, rfl, rfl, rfl, rfl, rfl⟩

theorem test_decode_dec_words :
    decode (.uop .dec 0b00100000) = .ok .decHdr ∧ decode (.uop .dec 0b01000100) = .ok (.decBytes 4) ∧
    decode (.uop .dec 0b01100000) = .ok .decFooter ∧ decode (.uop .dec 0b10000000) = .ok .decGap ∧
    decode (.uop .dec 0b10100000) = .ok .decGap2 ∧ decode (.uop .dec 0b11000000) = .ok .decEnd := ⟨rfl, rfl, rfl, rfl, rfl, rfl⟩

theorem test_decode_symbols :
    decode (.wire 0x02A801FE) = .ok .symZero ∧ decode (.wire 0x02A805FA) = .ok .symOne ∧
    decode (.wire 0x23321199) = .ok .symHdr ∧ decode (.wire 0x02A84E07) = .ok .symGap ∧
    decode (.wire 0x02A89C0E) = .ok .symGap2 := ⟨rfl, rfl, rfl, rfl, rfl⟩

theorem test_decode_refuses :
    decode (.cmd 0b11) = .error .reservedCommand ∧ decode (.uop .enc 0xE0) = .error .reservedOp ∧
    decode (.uop .enc 0x21) = .error .illegalArg ∧ decode (.uop .dec 0x41) = .error .illegalArg ∧
    decode (.uop .enc 0x50) = .error .illegalArg ∧ decode (.uop .dec 0x00) = .error .carrierInDec ∧
    decode (.wire 0x02A801FF) = .error .notASymbol := ⟨rfl, rfl, rfl, rfl, rfl, rfl, rfl⟩

/-- E.BIT and D.BIT have no word (R94): the two BYTES words whose sub-steps they are decode to BYTES. -/
theorem test_bits_have_no_word : encode (.eBit 0 0) = none ∧ encode (.dBit 15 7) = none := ⟨rfl, rfl⟩

theorem test_table_words :
    decodeTableWord 8 1 = some .encode ∧ decodeTableWord 8 2 = some .decode ∧ decodeTableWord 8 0x48 = some (.encBytes 8) ∧
    decodeTableWord 8 0 = some .encCarrier ∧ decodeTableWord 32 0x02A89C0E = some .symGap2 ∧ decodeTableWord 8 0xE0 = none ∧
    decodeTableWord 8 3 = none := by decide

/-! ### Small states -/

/-- Exact equality, the spec's test instrument MATCH_EQ (spec/95_test_vectors.md). -/
def matchEq : Matcher := fun p q => p == q

/-- ENC busy at slot `n`, with byte `a` of its record holding `v`. -/
def encAt (n : BitVec 4) (a : Nat) (v : Byte) : State :=
  { State.reset with encBusy := true, encUpc := n, encRec := Memory.write [] a v }

/-- DEC busy at slot `n` on a train, its cursor at 0. -/
def decAt (n : BitVec 4) (train : Train) : State :=
  { State.reset with decBusy := true, decUpc := n, srcTrain := train }

/-- A DECODE of `train` pending. -/
def decodePending (train : Train) : State :=
  { State.reset with cmd := 0b10, trainIn := train }

/-- The next state of an outcome, or the reset state. -/
def after (o : Host.Outcome State Fault Refusal) : State :=
  match o with
  | .next s => s
  | _ => State.reset

/-! ### One step per instruction -/

/-- ENCODE latches byte 0 = 0x19 and empties the sink (R100, vector DV-E6). -/
theorem test_encode_starts :
    let s := after (exec .encode { State.reset with recIn := 0x19, sinkTrain := [⟨1, 1⟩] })
    s.encBusy = true ∧ s.encRec = [(0, 0x19)] ∧ s.sinkTrain = [] := by decide +kernel

/-- DECODE takes the train and puts the cursor at 0 (R120). -/
theorem test_decode_starts :
    let s := after (exec .decode { State.reset with trainIn := [⟨1, 1⟩], srcCur := 9 })
    s.decBusy = true ∧ s.srcTrain = [⟨1, 1⟩] ∧ s.srcCur = 0 := by decide

/-- Example of R101. -/
theorem test_carrier : (after (exec .encCarrier (encAt 0 0 0))).sinkCarrier = some 38000 := by decide

/-- Example of R102. -/
theorem test_enc_hdr : (after (exec .encHdr (encAt 1 0 0))).sinkTrain = [⟨9010, 4505⟩] := by decide

/-- Example of R103: 0x19 at byte 8, the block at 8. -/
theorem test_enc_bytes :
    ((after (exec (.encBytes 8) (encAt 8 8 0x19))).sinkTrain.map fun p => p.space) =
      [1530, 510, 510, 1530, 1530, 510, 510, 510] ++ List.replicate 24 510 := by decide +kernel

/-- The record byte outside the block is not sent (R103). -/
theorem test_enc_bytes_block : (after (exec (.encBytes 4) (encAt 5 8 0xFF))).sinkTrain = List.replicate 32 ⟨680, 510⟩ := by
  decide +kernel

/-- Example of R105. -/
theorem test_enc_footer :
    (after (exec .encFooter (encAt 3 0 0))).sinkTrain = [⟨680, 510⟩, ⟨680, 1530⟩, ⟨680, 510⟩] := by decide

/-- Example of R106. -/
theorem test_enc_gap : (after (exec .encGap (encAt 4 0 0))).sinkTrain = [⟨680, 19975⟩] := by decide

/-- Example of R107. -/
theorem test_enc_gap2 : (after (exec .encGap2 (encAt 6 0 0))).sinkTrain = [⟨680, 39950⟩] := by decide

/-- END of the encoder replies done and leaves the index at 13 (R108, R39). -/
theorem test_enc_end :
    (after (exec .encEnd (encAt 13 0 0))).encReply = true ∧ (after (exec .encEnd (encAt 13 0 0))).encUpc = 13 := by decide

/-- Example of R104: byte 0x01, bit 0 is ONE and bit 7 ZERO. -/
theorem test_e_bit :
    (after (exec (.eBit 0 0) (encAt 2 0 1))).sinkTrain = [⟨680, 1530⟩] ∧
    (after (exec (.eBit 0 7) (encAt 2 0 1))).sinkTrain = [⟨680, 510⟩] := by decide

/-- Example of R123: the header passes, a data bit in its place does not. -/
theorem test_dec_hdr :
    (after (runDecHdr matchEq (decAt 0 [⟨9010, 4505⟩]))).srcCur = 1 ∧
    (after (runDecHdr matchEq (decAt 0 [⟨680, 1530⟩]))).decReply = some none := by decide

/-- Example of R124: ZERO gives 0, ONE gives 1, a Pair that is neither fails. -/
theorem test_d_bit :
    (after (runDBit matchEq 3 5 (decAt 1 [⟨680, 1530⟩]))).decAcc = [(3, 0x20)] ∧
    (after (runDBit matchEq 3 5 (decAt 1 [⟨680, 510⟩]))).srcCur = 1 ∧
    (after (runDBit matchEq 3 5 (decAt 1 [⟨680, 1000⟩]))).decReply = some none := by decide

/-- Under a matcher that takes any Pair, ONE wins (R124). -/
theorem test_d_bit_one_first : (after (runDBit (fun _ _ => true) 0 0 (decAt 1 [⟨680, 510⟩]))).decAcc = [(0, 1)] := by decide

/-- Example of R125: the 32 Pairs of 0x19, 0, 0, 0 decode at the block 4. -/
theorem test_dec_bytes :
    let pairs := ([1530, 510, 510, 1530, 1530, 510, 510, 510] ++ List.replicate 24 510).map (Pair.mk 680)
    (after (runDecBytes matchEq 4 (decAt 4 pairs))).decAcc = [(4, 0x19)] := by decide +kernel

/-- A block whose third Pair is neither ONE nor ZERO fails there with DEC.k = 2 (R125, R133). -/
theorem test_dec_bytes_fails :
    let s := after (runDecBytes matchEq 0 (decAt 1 [⟨680, 510⟩, ⟨680, 1530⟩, ⟨680, 1000⟩]))
    s.srcCur = 2 ∧ s.decK = 2 ∧ s.decBusy = false ∧ s.decReply = some none := by decide +kernel

/-- Example of R127, and ZERO, ZERO, ZERO failing at the second. -/
theorem test_dec_footer :
    (after (runDecFooter matchEq (decAt 2 [⟨680, 510⟩, ⟨680, 1530⟩, ⟨680, 510⟩]))).decUpc = 3 ∧
    (after (runDecFooter matchEq (decAt 2 [⟨680, 510⟩, ⟨680, 510⟩, ⟨680, 510⟩]))).srcCur = 1 := by decide

/-- Example of R128. -/
theorem test_dec_gap :
    (after (runDecGap matchEq (decAt 3 [⟨680, 19975⟩]))).decUpc = 4 ∧
    (after (runDecGap matchEq (decAt 3 [⟨680, 39950⟩]))).decReply = some none := by decide

/-- Example of R129. -/
theorem test_dec_gap2 :
    (after (runDecGap2 matchEq (decAt 5 [⟨680, 39950⟩]))).decUpc = 6 ∧
    (after (runDecGap2 matchEq (decAt 5 [⟨680, 19975⟩]))).decReply = some none := by decide

/-- END of the decoder replies the 16 bytes of DEC.acc (R130). -/
theorem test_dec_end :
    (after (exec .decEnd { decAt 12 [] with decAcc := [(0, 0x19), (15, 0x80)] })).decReply =
      some (some 0x80000000000000000000000000000019) := by decide +kernel

theorem test_symbols :
    (after (exec .symZero State.reset)).sinkTrain = [⟨680, 510⟩] ∧
    (after (exec .symOne State.reset)).sinkTrain = [⟨680, 1530⟩] ∧
    (after (exec .symHdr State.reset)).sinkTrain = [⟨9010, 4505⟩] ∧
    (after (exec .symGap State.reset)).sinkTrain = [⟨680, 19975⟩] ∧
    (after (exec .symGap2 State.reset)).sinkTrain = [⟨680, 39950⟩] := by decide

/-- The sink connection takes any Pair, also one that is no symbol and fits no PAIR32 word (R31, R71). -/
theorem test_append_pair :
    (after (step { State.reset with wire := some ⟨0, 70000⟩ })).sinkTrain = [⟨0, 70000⟩] ∧
    step { State.reset with wire := some ⟨680, 19975⟩ } = exec .symGap State.reset := ⟨rfl, rfl⟩

/-- A word placed in the reset state is what the next step runs. -/
theorem test_fetch_word :
    step (State.reset.withFetchWord 8 0xA0) = exec .encGap2 (State.reset.withFetchWord 8 0xA0) ∧
    step (State.reset.withFetchWord 8 2) = exec .decode State.reset ∧
    step (State.reset.withFetchWord 32 0x23321199) = exec .symHdr State.reset := ⟨rfl, rfl, rfl⟩

/-- With only DEC busy a placed word is DEC's. -/
theorem test_fetch_word_dec :
    step ((decAt 0 []).withFetchWord 8 0xC0) = exec .decEnd ((decAt 0 []).withFetchWord 8 0xC0) := rfl

/-! ### Whole transactions of the spec's vectors -/

/-- The first `n` steps of a decode under matchEq deliver `reply` with the cursor at `cur`, as one check. -/
def decodesTo (train : Train) (n : Nat) (reply : Option RecordBits) (cur : Nat) : Bool :=
  let u := after (runMoves (stepUnder matchEq) n (decodePending train))
  !u.decBusy && u.decReply == some reply && u.srcCur == cur

/-- Vector DV-D5: `some [19 00 ×15]`, the extra Pair not examined. -/
theorem test_vector_d5 : decodesTo (frame .spec 0x19 ++ [⟨1, 1⟩]) 14 (some 0x19) 140 = true := by decide +kernel

/-- Vector DV-D14: the first 100 Pairs give none at DEC_ROM[7], the ninth step, the cursor at 100. -/
theorem test_vector_d14 : decodesTo ((frame .spec 0x19).take 100) 9 none 100 = true := by decide +kernel

/-- Vector DV-E3: total duration 314160. -/
theorem test_vector_e3 :
    duration (after (runMoves step 15 { State.reset with cmd := 0b01, recIn := 0x19 })).sinkTrain = 314160 := by decide +kernel

/-! ### Witnesses: what each obligation assumes, met together -/

theorem witness_decode_inverts_encode : WellFormed (.decBytes 12) ∧ encode (.decBytes 12) = some (.uop .dec 0x4C) := ⟨rfl, rfl⟩

theorem witness_encode_inverts_decode : decode (.uop .enc 0x4C) = .ok (.encBytes 12) := rfl

theorem witness_command_codes :
    (Quiet State.reset ∧ State.reset.encBusy = false ∧ State.reset.decBusy = false) ∧
    ({ State.reset with cmd := 0b11 } : State).resetReq = false ∧ ({ State.reset with cmd := 0b11 } : State).cmd = 0b11 :=
  ⟨⟨⟨rfl, rfl, rfl⟩, rfl, rfl⟩, rfl, rfl⟩

/-- FramePositionMap at the last data positions of half 1; the position formula and the map of R85 meet at bit 127. -/
theorem witness_frame_position_map :
    TimingRom.spec.footerPattern = 0b010 ∧ 1 < 2 ∧ 70 * 1 + 37 ≤ 138 ∧ 138 ≤ 70 * 1 + 68 ∧ dataIndex 127 = 138 ∧
    64 * 1 + 32 + (138 - 70 * 1 - 37) = 127 := by decide

theorem witness_frame_follows_slots : slotAt .spec 139 = .framing .gap2 ∧ slotAt .spec 138 = .data 127 := by decide

theorem witness_frame_durations : (⟨680, 39950⟩ : Pair) ∈ frame .spec 0 := by decide +kernel

theorem witness_frame_determines_record :
    symPair .spec .one ≠ symPair .spec .zero ∧ frame .spec 0x19 = frame .spec 0x19 := ⟨by decide, rfl⟩

/-- EncodeStarts, DecodeStarts, EncodeProducesFrame and every result statement on the hardwired ROM: the reset state. -/
theorem witness_reset_runs :
    State.reset.rom = .spec ∧ State.reset.encBusy = false ∧ State.reset.decBusy = false ∧ State.reset.decAcc.wf = true :=
  ⟨rfl, rfl, rfl, rfl⟩

/-- BYTES at the last block, the bit operations at the last bit. -/
theorem witness_last_operands :
    ((12 : BitVec 5) = 0 ∨ (12 : BitVec 5) = 4 ∨ (12 : BitVec 5) = 8 ∨ (12 : BitVec 5) = 12) ∧ 15 < 16 ∧ 7 < 8 := by decide

theorem witness_encode_ready :
    EncodeReady { State.reset with cmd := 0b01, recIn := 0x19 } 0x19 :=
  ⟨rfl, rfl, rfl, rfl, rfl, rfl⟩

/-- ExpectConsumesOnMatch: a Pair that matches, one that does not, and an exhausted train. -/
theorem witness_expect :
    ((decAt 0 [⟨9010, 4505⟩]).srcTrain[0]? = some ⟨9010, 4505⟩ ∧ matchEq ⟨9010, 4505⟩ ⟨9010, 4505⟩ = true) ∧
    ((decAt 0 [⟨1, 1⟩]).srcTrain[0]? = some ⟨1, 1⟩ ∧ matchEq ⟨1, 1⟩ ⟨9010, 4505⟩ = false) ∧
    (decAt 0 []).srcTrain.length ≤ (decAt 0 []).srcCur := by decide

theorem witness_decode_ready (train : Train) :
    DecodeReady (decodePending train) train ∧ (decodePending train).decAcc.wf = true :=
  ⟨⟨rfl, rfl, rfl, rfl, rfl, rfl⟩, rfl⟩

theorem witness_exact : Exact matchEq .spec := by intro y; cases y <;> rfl

theorem witness_symsep : SymSep matchEq .spec := by
  intro y z h; cases y <;> cases z <;> first | exact absurd rfl h | rfl

/-- RoundTrip and EncodeThenDecode, with a Pair after the frame. -/
theorem witness_round_trip :
    Exact matchEq (decodePending []).rom ∧ SymSep matchEq (decodePending []).rom ∧
    DecodeReady (decodePending (frame .spec 0x19 ++ [⟨1, 1⟩])) (frame (decodePending []).rom 0x19 ++ [⟨1, 1⟩]) :=
  ⟨witness_exact, witness_symsep, (witness_decode_ready _).1⟩

/-- MismatchRepliesNone, clause by clause: a first Pair that is ZERO; the last data position, between both ranges; 139 Pairs. -/
theorem witness_mismatch :
    (∃ y, y ≠ Sym.hdr ∧ [symPair .spec .zero][0]? = some (symPair .spec y)) ∧
    (∃ j q, j < 128 ∧ ((frame .spec 0).set 138 ⟨680, 1000⟩)[dataIndex j]? = some q ∧ matchEq q (symPair .spec .one) = false ∧
      matchEq q (symPair .spec .zero) = false) ∧
    ((frame .spec 0).take 139).length < 140 :=
  ⟨⟨.zero, by decide, rfl⟩, ⟨127, ⟨680, 1000⟩, by decide +kernel⟩, by decide +kernel⟩

/-- What a passing `decodesTo` says. -/
theorem decodesTo_of_check {train : Train} {n : Nat} {reply : Option RecordBits} {cur : Nat}
    (h : decodesTo train n reply cur = true) (hc : cur ≠ 0) (h1 : 1 ≤ n) (h14 : n ≤ 14) :
    DecodesTo matchEq (decodePending train) reply := by
  unfold decodesTo at h
  cases e : runMoves (stepUnder matchEq) n (decodePending train) with
  | next u =>
    rw [e] at h; simp only [after, Bool.and_eq_true, Bool.not_eq_true', beq_iff_eq] at h
    exact ⟨n, u, h1, h14, e, h.1.1, h.1.2⟩
  | fault f => rw [e] at h; simp only [after, Bool.and_eq_true, beq_iff_eq] at h; exact absurd h.2.symm hc
  | refused r => rw [e] at h; simp only [after, Bool.and_eq_true, beq_iff_eq] at h; exact absurd h.2.symm hc

/-- TrailingPairsIgnored and the first clause of DecodeConsumption: a decode that replies `some`, on a train that agrees with the
bare frame on the first 140 Pairs. -/
theorem witness_decodes_some :
    DecodesTo matchEq (decodePending (frame .spec 0x19 ++ [⟨1, 1⟩])) (some 0x19) ∧
    (frame .spec 0x19 ++ [Pair.mk 1 1]).take 140 = (frame .spec 0x19).take 140 :=
  ⟨decodesTo_of_check test_vector_d5 (by decide) (by decide) (by decide), by decide +kernel⟩

/-- The second clause of DecodeConsumption: a decode that replies none. -/
theorem witness_decodes_none : DecodesTo matchEq (decodePending ((frame .spec 0x19).take 100)) none :=
  decodesTo_of_check test_vector_d14 (by decide) (by decide) (by decide)

/-- DecodeReadsNoOldState: two states that differ in what an earlier decode left. -/
theorem witness_old_state :
    DecodeReady (decodePending []) [] ∧ DecodeReady { decodePending [] with decAcc := [(3, 5)], srcCur := 7 } [] ∧
    (decodePending []).decAcc.wf = true ∧
    ({ decodePending [] with decAcc := [(3, 5)], srcCur := 7 } : State).decAcc.wf = true ∧
    (decodePending []).rom = ({ decodePending [] with decAcc := [(3, 5)], srcCur := 7 } : State).rom ∧
    DecodesTo matchEq (decodePending []) none :=
  ⟨⟨rfl, rfl, rfl, rfl, rfl, rfl⟩, ⟨rfl, rfl, rfl, rfl, rfl, rfl⟩, rfl, rfl, rfl, 2, _, by decide, by decide, rfl, rfl, rfl⟩

/-- IllegalOperandsStop: the operands next to the legal ones. -/
theorem witness_illegal_operands :
    ((13 : BitVec 5) ≠ 0 ∧ (13 : BitVec 5) ≠ 4 ∧ (13 : BitVec 5) ≠ 8 ∧ (13 : BitVec 5) ≠ 12) ∧ (16 ≤ 16 ∨ 8 ≤ 0) ∧
    (16 ≤ 15 ∨ 8 ≤ 8) := by decide

/-- BusyUnitRefusesCommand: a command to each unit busy, and to each unit idle while the other is busy. -/
theorem witness_busy_unit :
    ((encAt 3 0 0).resetReq = false ∧ ({ encAt 3 0 0 with cmd := 0b01 } : State).cmd = 0b01 ∧ (encAt 3 0 0).encBusy = true) ∧
    ((decAt 3 []).resetReq = false ∧ ({ decAt 3 [] with cmd := 0b10 } : State).cmd = 0b10 ∧ (decAt 3 []).decBusy = true) ∧
    (({ decAt 3 [] with cmd := 0b01 } : State).encBusy = false ∧ ({ encAt 3 0 0 with cmd := 0b10 } : State).decBusy = false) :=
  ⟨⟨rfl, rfl, rfl⟩, ⟨rfl, rfl, rfl⟩, rfl, rfl⟩

/-- Both units busy, at the last slots of their schedules, with the given schedule input. -/
def bothAt (sched : List UnitId) : State :=
  { State.reset with encBusy := true, decBusy := true, encUpc := 13, decUpc := 12, sched := sched }

/-- StepRunsFetchedInstruction, clause by clause. -/
theorem witness_step_fetch :
    ((decodePending []).cmd ≠ 0 ∧ decode (.cmd (decodePending []).cmd) = .ok .decode) ∧
    (({ State.reset with wire := some ⟨680, 510⟩ } : State).wire = some (symPair State.reset.rom .zero) ∧
      ({ State.reset with wire := some ⟨0, 70000⟩ } : State).wire = some ⟨0, 70000⟩) ∧
    ((encAt 13 0 0).encBusy = true ∧ (encAt 13 0 0).decBusy = false ∧ encRom[(encAt 13 0 0).encUpc.toNat]? = some 0xC0 ∧
      decode (.uop .enc 0xC0) = .ok .encEnd) ∧
    ((decAt 12 []).decBusy = true ∧ (decAt 12 []).encBusy = false ∧ (decAt 12 []).wire = none ∧
      decRom[(decAt 12 []).decUpc.toNat]? = some 0xC0 ∧ decode (.uop .dec 0xC0) = .ok .decEnd) ∧
    ((bothAt []).sched = [] ∧ (bothAt []).encBusy = true ∧ (bothAt []).decBusy = true) ∧
    ((bothAt [.enc, .dec]).sched = .enc :: [.dec] ∧ encRom[(bothAt []).encUpc.toNat]? = some 0xC0) ∧
    ((bothAt [.dec]).sched = .dec :: [] ∧ decRom[(bothAt []).decUpc.toNat]? = some 0xC0) := by decide

theorem witness_reset_requested : ({ bothAt [] with resetReq := true } : State).resetReq = true := rfl

/-- RomNeverWritten, BuffersStayCanonical, EncodeStaysOnTrack and DecodeStaysOnTrack: a step of a running transaction. -/
theorem witness_encode_runs :
    EncodeOnTrack State.reset.startEncode ∧ BuffersCanonical State.reset.startEncode ∧
    ∃ t, step State.reset.startEncode = .next t ∧ t.encBusy = true :=
  ⟨fun _ => ⟨by decide, rfl, by decide⟩, ⟨by decide +kernel, rfl⟩, _, rfl, rfl⟩

theorem witness_decode_runs :
    DecodeOnTrack matchEq { State.reset.startDecode with srcTrain := [⟨9010, 4505⟩] } ∧
    ∃ t, stepUnder matchEq { State.reset.startDecode with srcTrain := [⟨9010, 4505⟩] } = .next t ∧ t.decBusy = true ∧
      t.srcCur = 1 :=
  ⟨fun _ => ⟨by decide, rfl, by decide, fun i _ h => absurd h (Nat.not_lt_zero i), fun _ _ _ h => absurd h (Nat.not_lt_zero _)⟩,
    _, rfl, rfl, rfl⟩

/-- StepStopsOnlyOnRefusedInputs: a state on track whose step is refused, for each of the three reasons. -/
theorem witness_refused_inputs :
    (EncodeOnTrack State.reset ∧ DecodeOnTrack Config.matchFn State.reset) ∧
    step { State.reset with cmd := 0b11 } = .refused (.rejected .reservedCommand) ∧
    step { State.reset.startEncode with cmd := 0b01 } = .refused (.unitBusy .enc) ∧
    step { State.reset.startDecode with cmd := 0b10 } = .refused (.unitBusy .dec) :=
  ⟨⟨fun h => absurd h (by decide), fun h => absurd h (by decide)⟩, rfl, rfl, rfl⟩

/-- UnitsShareNoMutableState, UnitMovesCommute and InputsAreStable: both units can move; and two states that agree on one unit's
side and differ on the other's. -/
theorem witness_both_move :
    (∃ a b, unitStep matchEq .enc (bothAt []) = .next a ∧ unitStep matchEq .dec (bothAt []) = .next b) ∧
    SameEncSide (bothAt []) { bothAt [] with decUpc := 3, srcCur := 7 } ∧
    SameDecSide (bothAt []) { bothAt [] with encUpc := 3, sinkTrain := [⟨1, 1⟩] } :=
  ⟨⟨_, _, rfl, rfl⟩, ⟨rfl, rfl, rfl, rfl, rfl, rfl, rfl⟩, rfl, rfl, rfl, rfl, rfl, rfl, rfl⟩

/-- EveryInterleavingGivesTheSameResults: a decode just started while the encode stands at slot 1, the carrier set. -/
theorem witness_interleaving :
    let s := { State.reset.startEncode.startDecode with sched := [.dec, .enc], encUpc := 1, sinkCarrier := some 38000 }
    Quiet s ∧ s.encBusy = true ∧ s.decBusy = true ∧ EncodeOnTrack s ∧ DecodeOnTrack matchEq s ∧ s.decAcc.wf = true :=
  ⟨⟨rfl, rfl, rfl⟩, rfl, rfl, fun _ => ⟨by decide, rfl, fun _ => rfl⟩,
    fun _ => ⟨by decide, rfl, by decide, fun i _ h => absurd h (Nat.not_lt_zero i), fun _ _ _ h => absurd h (Nat.not_lt_zero _)⟩,
    rfl⟩

/-- RepliesAreNotKept: a step that delivers both kinds of reply, and the idle step after it, on which the reply is gone. -/
theorem witness_replies :
    (∃ t, stepUnder matchEq (encAt 13 0 0) = .next t ∧ t.encReply = true ∧
      ∃ u, stepUnder matchEq t = .next u ∧ u.encReply = false) ∧
    ∃ t, stepUnder matchEq (decAt 0 []) = .next t ∧ t.decReply ≠ none ∧
      ∃ u, stepUnder matchEq t = .next u ∧ u.decReply = none :=
  ⟨⟨_, rfl, rfl, _, rfl, rfl⟩, _, rfl, by decide, _, rfl, rfl⟩

/-- SinkHasNoOtherWriter: an idle step with the slot empty, and a step of an ENCODE with the slot full. -/
theorem witness_sink_writers :
    (State.reset.wire = none ∧ State.reset.cmd ≠ 0b01 ∧ State.reset.nextMover ≠ .unit .enc ∧
      ∃ t, step State.reset = .next t) ∧
    ∃ t, step { encAt 1 0 0 with wire := some ⟨680, 510⟩ } = .next t ∧ t.wire = some ⟨680, 510⟩ :=
  ⟨⟨rfl, by decide, by decide, _, rfl⟩, _, rfl, rfl⟩

/-- SinkIsEncodersWhileBusy: a DECODE command during an ENCODE. -/
theorem witness_sink_owned :
    let s := { encAt 5 0 0 with cmd := 0b10 }
    s.encBusy = true ∧ s.resetReq = false ∧ s.nextMover ≠ .unit .enc ∧ ∃ t, step s = .next t :=
  ⟨rfl, rfl, by decide, _, rfl⟩

/-- A layout that packs the fields one after another, to show that sound layouts exist; it is no layout of the hardware. -/
def packedLayout : FieldLayout
  | .mode => 0
  | .power => 3
  | .fanSpeed => 4
  | .swingAuto => 6
  | .temperature => 7
  | .turbo => 11
  | .light => 12
  | .ionFilter => 13
  | .xFan => 14
  | .verticalSwing => 15
  | .horizontalSwing => 19
  | .checksum1 => 20
  | .checksum2 => 24
  | .quiet => 28
  | .fan => 29

theorem witness_layout : LayoutSound packedLayout ∧ inField packedLayout .fan 127 = false := by
  refine ⟨⟨fun f => by cases f <;> decide, fun f g i hne h => ?_⟩, rfl⟩
  simp only [inField, Bool.and_eq_true, decide_eq_true_eq, Bool.and_eq_false_iff, decide_eq_false_iff_not] at h ⊢
  cases f <;> cases g <;> simp only [packedLayout, fieldWidth] at h ⊢ <;> first | exact absurd rfl hne | omega

end Sys2Proof.Tests
end

section
/-! The durations of a frame: every Pair of a frame is the canonical Pair of a symbol (R72, R84), so a bound on the five canonical
Pairs bounds them all. -/

namespace Sys2Proof.Machine

/-- A frame holds canonical Pairs of symbols only (R84). -/
theorem exists_symPair_of_mem_frame {rom : TimingRom} {r : RecordBits} {p : Pair} (h : p ∈ frame rom r) :
    ∃ y, symPair rom y = p := by
  obtain ⟨y, -, hy⟩ := List.mem_map.mp h
  exact ⟨y, hy⟩

/-- The largest canonical duration is GAP2_SPACE, 39950 (R78). -/
theorem symPair_spec_le (y : Sym) : (symPair .spec y).mark ≤ 39950 ∧ (symPair .spec y).space ≤ 39950 := by
  cases y <;> decide

/-- Settles O10: the frame's Pairs are canonical, and no canonical duration exceeds GAP2_SPACE. -/
theorem frameDurationsFit16Bits : Obligations.FrameDurationsFit16Bits := by
  intro r p hp
  obtain ⟨y, rfl⟩ := exists_symPair_of_mem_frame hp
  obtain ⟨hmark, hspace⟩ := symPair_spec_le y
  exact ⟨hmark, hspace, by omega, by omega⟩

end Sys2Proof.Machine
end

section
/-! A move of ENC from any state: its frame, its reply port, and what it reads (R20, R21, R36). -/

namespace Sys2Proof.Machine

/-- ENC moves before its last slot, where `unitStep_enc_eq` says what it does, and at its last slot, where the transaction ends; beyond
its ROM it does not (R39). -/
theorem unitStep_enc_inv {m : Matcher} {s t : State} (h : unitStep m .enc s = .next t) :
    s.encUpc.toNat < 13 ∨ (s.encUpc.toNat = 13 ∧ t = s.endEncode) := by
  obtain hlt | heq | hgt := Nat.lt_trichotomy s.encUpc.toNat 13
  · exact .inl hlt
  · rw [unitStep_enc_end m heq] at h
    cases h
    exact .inr ⟨heq, rfl⟩
  · have hnone : encProgram[s.encUpc.toNat]? = none := List.getElem?_eq_none hgt
    rw [unitStep, unitCycle_enc, hnone] at h
    cases h

/-- A move of ENC writes only the sink and its own registers and reply port (R21). -/
theorem unitStep_enc_frame {m : Matcher} {s t : State} (h : unitStep m .enc s = .next t) :
    t = { s with
      sinkCarrier := t.sinkCarrier, sinkTrain := t.sinkTrain, encBusy := t.encBusy, encUpc := t.encUpc, encK := t.encK,
      encReply := t.encReply } := by
  obtain hlt | ⟨-, rfl⟩ := unitStep_enc_inv h
  · rw [unitStep_enc_eq m s hlt] at h
    cases h
    rfl
  · rfl

/-- A move of ENC leaves its reply port alone, or ends the transaction (R100, R108). -/
theorem unitStep_enc_reply {m : Matcher} {s t : State} (h : unitStep m .enc s = .next t) :
    t.encReply = s.encReply ∨ t.encBusy = false := by
  obtain hlt | ⟨-, rfl⟩ := unitStep_enc_inv h
  · rw [unitStep_enc_eq m s hlt] at h
    cases h
    exact .inl rfl
  · exact .inr rfl

/-- A move of ENC reads only ENC's side and the ROM (R21): from two states that agree on these it does the same to both. -/
theorem unitStep_enc_reads {m : Matcher} {s s' t : State} (h : unitStep m .enc s = .next t) (hside : SameEncSide s s')
    (hrom : s'.rom = s.rom) :
    ∃ t', unitStep m .enc s' = .next t' ∧ SameEncSide t t' ∧ (s.encReply = s'.encReply → t.encReply = t'.encReply) := by
  obtain ⟨hcarrier, htrain, hbusy, hrec, hupc, hk, hin⟩ := hside
  obtain hlt | ⟨hlast, rfl⟩ := unitStep_enc_inv h
  · rw [unitStep_enc_eq m s hlt] at h
    cases h
    refine ⟨_, unitStep_enc_eq m s' (hupc ▸ hlt), ?_, id⟩
    simp only [SameEncSide, ← hcarrier, ← htrain, ← hbusy, ← hrec, ← hupc, ← hk, ← hin, hrom, and_self]
  · exact ⟨_, unitStep_enc_end m (hupc ▸ hlast), ⟨hcarrier, htrain, rfl, hrec, hupc, hk, hin⟩, fun _ => rfl⟩

end Sys2Proof.Machine
end

section
/-! The work of DEC's micro-operations: what it reads and what it writes, put together from its expectations and bits (R17, R121 to
R129). -/

namespace Sys2Proof.Machine

/-- The state `e` with the ROM and what DEC works on, the source and the accumulator, taken from `s`. -/
def State.putWork (e s : State) : State :=
  { e with rom := s.rom, srcTrain := s.srcTrain, srcCur := s.srcCur, decAcc := s.decAcc, decK := s.decK }

/-- A piece of DEC's work, before its `ok` moves the schedule index on or ends the decode: it reads nothing but the ROM, the source and
the accumulator, and of these it writes the cursor, DEC.acc, which stays canonical, and DEC.k. -/
structure DecoderWork (f : State → Checked) : Prop where
  reads : ∀ e s : State, f (e.putWork s) = ((f s).1, e.putWork (f s).2)
  rom : ∀ s, (f s).2.rom = s.rom
  srcTrain : ∀ s, (f s).2.srcTrain = s.srcTrain
  wf : ∀ s, s.decAcc.wf = true → (f s).2.decAcc.wf = true

/-- The work `f`, and after it the work `g` if `f` came out true (R17). -/
def andThen (f g : State → Checked) (s : State) : Checked :=
  if (f s).1 then g (f s).2 else f s

theorem DecoderWork.andThen {f g : State → Checked} (hf : DecoderWork f) (hg : DecoderWork g) :
    DecoderWork (andThen f g) where
  reads e s := by
    unfold Machine.andThen
    rw [hf.reads]
    cases hok : (f s).1
    · simp [hok]
    · simpa using hg.reads e (f s).2
  rom s := by
    unfold Machine.andThen
    split
    · rw [hg.rom, hf.rom]
    · exact hf.rom s
  srcTrain s := by
    unfold Machine.andThen
    split
    · rw [hg.srcTrain, hf.srcTrain]
    · exact hf.srcTrain s
  wf s hw := by
    unfold Machine.andThen
    split
    · exact hg.wf _ (hf.wf s hw)
    · exact hf.wf s hw

/-- Work that depends on the ROM's constants, under the ROM of the state it runs in. -/
theorem DecoderWork.atRom {f : TimingRom → State → Checked} (hf : ∀ rom, DecoderWork (f rom)) :
    DecoderWork fun s => f s.rom s where
  reads e s := (hf s.rom).reads e s
  rom s := (hf s.rom).rom s
  srcTrain s := (hf s.rom).srcTrain s
  wf s := (hf s.rom).wf s

/-- Work writes nothing but the cursor, the accumulator and DEC.k. -/
theorem DecoderWork.frame {f : State → Checked} (hf : DecoderWork f) (s : State) :
    (f s).2 = { s with srcCur := (f s).2.srcCur, decAcc := (f s).2.decAcc, decK := (f s).2.decK } := by
  have hself : (f s).2 = s.putWork (f s).2 := congrArg Prod.snd (hf.reads s s)
  rw [State.putWork, hf.rom, hf.srcTrain] at hself
  exact hself

theorem DecoderWork.decReply {f : State → Checked} (hf : DecoderWork f) (s : State) : (f s).2.decReply = s.decReply := by
  rw [hf.frame s]

/-- A state that agrees with `s` on DEC's side and the ROM is itself with the work of `s` put into it. -/
theorem State.putWork_of_sameDecSide {s s' : State} (hside : SameDecSide s s') (hrom : s'.rom = s.rom) :
    s'.putWork s = s' := by
  obtain ⟨htrain, hcur, -, hacc, -, hk, -⟩ := hside
  simp only [State.putWork, htrain, hcur, hacc, hk, ← hrom]

/-- Work puts into a state that agrees on DEC's side and the ROM what it puts into this one. -/
theorem DecoderWork.sameDecSide {f : State → Checked} (hf : DecoderWork f) {s s' : State} (hside : SameDecSide s s')
    (hrom : s'.rom = s.rom) : (f s').1 = (f s).1 ∧ SameDecSide (f s).2 (f s').2 := by
  have hreads := hf.reads s' s
  rw [State.putWork_of_sameDecSide hside hrom] at hreads
  obtain ⟨-, -, hbusy, -, hupc, -, hin⟩ := hside
  rw [hreads, hf.frame s]
  exact ⟨rfl, rfl, rfl, hbusy, rfl, hupc, rfl, hin⟩

/-- No work at all. -/
theorem decoderWork_done : DecoderWork fun s => (true, s) :=
  ⟨fun _ _ => rfl, fun _ => rfl, fun _ => rfl, fun _ hw => hw⟩

/-- EXPECT (R121). -/
theorem decoderWork_expect (m : Matcher) (p : Pair) : DecoderWork fun s => s.expect m p where
  reads e s := by
    have hsees : (e.putWork s).sees m p = s.sees m p := rfl
    unfold State.expect
    rw [hsees]
    split <;> rfl
  rom s := by obtain ⟨-, he⟩ | ⟨-, he⟩ := s.expect_cases m p <;> rw [he]; rfl
  srcTrain s := by obtain ⟨-, he⟩ | ⟨-, he⟩ := s.expect_cases m p <;> rw [he]; rfl
  wf s hw := by obtain ⟨-, he⟩ | ⟨-, he⟩ := s.expect_cases m p <;> rw [he] <;> exact hw

theorem expectAll_cons (m : Matcher) (p : Pair) (ps : List Pair) (s : State) :
    s.expectAll m (p :: ps) = andThen (fun s => s.expect m p) (fun s => s.expectAll m ps) s := by
  obtain ⟨-, he⟩ | ⟨-, he⟩ := s.expect_cases m p <;> simp [State.expectAll, andThen, he]

/-- A chain of expectations (R17, R127). -/
theorem decoderWork_expectAll (m : Matcher) (ps : List Pair) : DecoderWork fun s => s.expectAll m ps := by
  induction ps with
  | nil => exact decoderWork_done
  | cons p ps ih => simpa only [expectAll_cons] using (decoderWork_expect m p).andThen ih

/-- One bit into a byte of the record buffer (R124). -/
theorem decoderWork_takeBit (m : Matcher) {a : Nat} (ha : a < 16) (b : Nat) : DecoderWork fun s => s.takeBit m a b where
  reads e s := by
    have hbit : (e.putWork s).bitAt m 0 = s.bitAt m 0 := rfl
    simp only [State.takeBit_eq, hbit]
    split <;> rfl
  rom s := by rw [State.takeBit_eq]; split <;> rfl
  srcTrain s := by rw [State.takeBit_eq]; split <;> rfl
  wf s hw := by
    rw [State.takeBit_eq]
    split
    · exact Memory.wf_writeBit hw ha b _
    · exact hw

/-- A sub-step of BYTES: `DEC.k <- k`, then its bit (R125). -/
theorem DecoderWork.afterSetDecK {f : State → Checked} (hf : DecoderWork f) (k : Nat) :
    DecoderWork fun s => f (s.setDecK k) where
  reads e s := hf.reads e (s.setDecK k)
  rom s := hf.rom (s.setDecK k)
  srcTrain s := hf.srcTrain (s.setDecK k)
  wf s := hf.wf (s.setDecK k)

theorem decBlockFrom_cons (m : Matcher) (lo : BitVec 5) (k : Nat) (ks : List Nat) (s : State) :
    decBlockFrom m lo (k :: ks) s =
      andThen (fun s => (s.setDecK k).takeBit m (blockByte lo k) (blockBit k)) (decBlockFrom m lo ks) s := by
  simp only [decBlockFrom, andThen]
  obtain ⟨ok, s'⟩ := (s.setDecK k).takeBit m (blockByte lo k) (blockBit k)
  cases ok <;> rfl

theorem blockByte_lt {lo : BitVec 5} (hlo : blockLegal lo = true) {k : Nat} (hk : k < 32) : blockByte lo k < 16 := by
  have hlo12 : lo.toNat ≤ 12 := by revert lo; decide
  unfold blockByte
  omega

/-- The sub-steps of BYTES (R125). -/
theorem decoderWork_decBlockFrom (m : Matcher) {lo : BitVec 5} (hlo : blockLegal lo = true) (ks : List Nat)
    (hks : ∀ k ∈ ks, k < 32) : DecoderWork (decBlockFrom m lo ks) := by
  induction ks with
  | nil => exact decoderWork_done
  | cons k ks ih =>
    have hbit := decoderWork_takeBit m (blockByte_lt hlo (hks k (by simp))) (blockBit k)
    have hrest := ih fun j hj => hks j (by simp [hj])
    rw [funext (decBlockFrom_cons m lo k ks)]
    exact (hbit.afterSetDecK k).andThen hrest

/-- `BYTES lo` (R125). -/
theorem decoderWork_decBlock (m : Matcher) {lo : BitVec 5} (hlo : blockLegal lo = true) : DecoderWork (decBlock m lo) :=
  decoderWork_decBlockFrom m hlo (List.range 32) fun _ hk => List.mem_range.mp hk

/-- The instruction does a piece of DEC's work, whose `ok` then moves the schedule index on or ends the decode (R120, R133). -/
def RunsWork (m : Matcher) (i : Instr) : Prop :=
  ∃ f, DecoderWork f ∧ ∀ s, execUnder m i s = .next (finishUop (f s))

theorem runsWork_decHdr (m : Matcher) : RunsWork m .decHdr :=
  ⟨_, .atRom fun rom => decoderWork_expect m (symPair rom .hdr), fun _ => rfl⟩

theorem runsWork_decGap (m : Matcher) : RunsWork m .decGap :=
  ⟨_, .atRom fun rom => decoderWork_expect m (symPair rom .gap), fun _ => rfl⟩

theorem runsWork_decGap2 (m : Matcher) : RunsWork m .decGap2 :=
  ⟨_, .atRom fun rom => decoderWork_expect m (symPair rom .gap2), fun _ => rfl⟩

theorem runsWork_decFooter (m : Matcher) : RunsWork m .decFooter :=
  ⟨_, .atRom fun rom => decoderWork_expectAll m ((footerSyms rom).map (symPair rom)), fun _ => rfl⟩

theorem runsWork_decBytes (m : Matcher) {lo : BitVec 5} (hlo : blockLegal lo = true) : RunsWork m (.decBytes lo) :=
  ⟨_, decoderWork_decBlock m hlo, fun _ => by simp only [execUnder, runDecBytes, hlo, if_true]⟩

/-- Every micro-operation of DEC_ROM but END does a piece of work (R87). -/
theorem runsWork_of_mem_decProgram (m : Matcher) {i : Instr} (hi : i ∈ decProgram) (hend : i ≠ .decEnd) : RunsWork m i := by
  simp only [decProgram, List.mem_cons, List.not_mem_nil, or_false] at hi
  rcases hi with rfl | rfl | rfl | rfl | rfl | rfl | rfl | rfl | rfl | rfl | rfl | rfl | rfl
  · exact runsWork_decHdr m
  · exact runsWork_decBytes m rfl
  · exact runsWork_decFooter m
  · exact runsWork_decGap m
  · exact runsWork_decBytes m rfl
  · exact runsWork_decGap2 m
  · exact runsWork_decHdr m
  · exact runsWork_decBytes m rfl
  · exact runsWork_decFooter m
  · exact runsWork_decGap m
  · exact runsWork_decBytes m rfl
  · exact runsWork_decGap2 m
  · exact absurd rfl hend

end Sys2Proof.Machine
end

section
/-! A move of DEC from any state, wherever its cursor stands: its frame, its reply port, the canonical form, and what it reads (R20,
R21, R36). -/

namespace Sys2Proof.Machine

/-- DEC's move, inverted: at the last slot it replies with the accumulator; before it, it does a piece of work, the same from every
state at that slot. -/
theorem unitStep_dec_inv {m : Matcher} {s t : State} (h : unitStep m .dec s = .next t) :
    (s.decUpc.toNat = 12 ∧ t = s.endDecode (some s.decAcc.pack)) ∨
    ∃ f, DecoderWork f ∧ t = finishUop (f s) ∧
      ∀ s' : State, s.decUpc = s'.decUpc → unitStep m .dec s' = .next (finishUop (f s')) := by
  by_cases hlast : s.decUpc.toNat = 12
  · rw [unitStep_dec_end m hlast] at h
    cases h
    exact .inl ⟨hlast, rfl⟩
  cases hi : decProgram[s.decUpc.toNat]? with
  | none =>
    rw [unitStep, unitCycle_dec, hi] at h
    cases h
  | some i =>
    obtain ⟨hlt, hget⟩ := List.getElem?_eq_some_iff.mp hi
    have hend : i ≠ .decEnd := by
      have hbefore : ∀ n (hn : n < decProgram.length), n ≠ 12 → decProgram[n] ≠ .decEnd := by decide
      exact hget ▸ hbefore _ hlt hlast
    obtain ⟨f, hf, hexec⟩ := runsWork_of_mem_decProgram m (List.mem_of_getElem? hi) hend
    have hmove : ∀ s' : State, s.decUpc = s'.decUpc → unitStep m .dec s' = .next (finishUop (f s')) := by
      intro s' hupc
      rw [unitStep, unitCycle_dec, ← hupc, hi]
      exact hexec s'
    rw [hmove s rfl] at h
    cases h
    exact .inr ⟨f, hf, rfl, hmove⟩

/-- A move of DEC writes only DEC's own registers, its reply port and the cursor (R21). -/
theorem unitStep_dec_frame {m : Matcher} {s t : State} (h : unitStep m .dec s = .next t) :
    t = { s with
      srcCur := t.srcCur, decBusy := t.decBusy, decAcc := t.decAcc, decUpc := t.decUpc, decK := t.decK,
      decReply := t.decReply } := by
  obtain ⟨-, rfl⟩ | ⟨f, hf, rfl, -⟩ := unitStep_dec_inv h
  · rfl
  · unfold finishUop
    rw [hf.frame s]
    split <;> rfl

/-- A move of DEC leaves its reply port alone, or ends the transaction (R120, R130, R133). -/
theorem unitStep_dec_reply {m : Matcher} {s t : State} (h : unitStep m .dec s = .next t) :
    t.decReply = s.decReply ∨ t.decBusy = false := by
  obtain ⟨-, rfl⟩ | ⟨f, hf, rfl, -⟩ := unitStep_dec_inv h
  · exact .inr rfl
  · unfold finishUop
    split
    · exact .inl (hf.decReply s)
    · exact .inr rfl

/-- A move of DEC keeps DEC.acc canonical (R50, R54). -/
theorem unitStep_dec_wf {m : Matcher} {s t : State} (h : unitStep m .dec s = .next t) (hw : s.decAcc.wf = true) :
    t.decAcc.wf = true := by
  obtain ⟨-, rfl⟩ | ⟨f, hf, rfl, -⟩ := unitStep_dec_inv h
  · exact hw
  · unfold finishUop
    split <;> exact hf.wf s hw

theorem SameDecSide.endDecode {s s' : State} (hside : SameDecSide s s') (reply reply' : Option RecordBits) :
    SameDecSide (s.endDecode reply) (s'.endDecode reply') := by
  obtain ⟨htrain, hcur, -, hacc, hupc, hk, hin⟩ := hside
  exact ⟨htrain, hcur, rfl, hacc, hupc, hk, hin⟩

theorem SameDecSide.decAdvance {s s' : State} (hside : SameDecSide s s') : SameDecSide s.decAdvance s'.decAdvance := by
  obtain ⟨htrain, hcur, hbusy, hacc, hupc, hk, hin⟩ := hside
  exact ⟨htrain, hcur, hbusy, hacc, congrArg (· + 1) hupc, hk, hin⟩

/-- A move of DEC reads only DEC's side and the ROM (R21): from two states that agree on these it does the same to both. -/
theorem unitStep_dec_reads {m : Matcher} {s s' t : State} (h : unitStep m .dec s = .next t) (hside : SameDecSide s s')
    (hrom : s'.rom = s.rom) :
    ∃ t', unitStep m .dec s' = .next t' ∧ SameDecSide t t' ∧ (s.decReply = s'.decReply → t.decReply = t'.decReply) := by
  obtain ⟨-, -, -, hacc, hupc, -, -⟩ := id hside
  obtain ⟨hlast, rfl⟩ | ⟨f, hf, rfl, hmove⟩ := unitStep_dec_inv h
  · refine ⟨_, unitStep_dec_end m (hupc ▸ hlast), hside.endDecode _ _, fun _ => ?_⟩
    simp only [State.endDecode_decReply, hacc]
  · obtain ⟨hok, hwork⟩ := hf.sameDecSide hside hrom
    refine ⟨_, hmove s' hupc, ?_⟩
    unfold finishUop
    rw [hok]
    split
    · refine ⟨hwork.decAdvance, fun hreply => ?_⟩
      rw [State.decAdvance_decReply, State.decAdvance_decReply, hf.decReply, hf.decReply, hreply]
    · exact ⟨hwork.endDecode _ _, fun _ => rfl⟩

end Sys2Proof.Machine
end

section
/-! The dispatch and the step at MATCH (R12, R122), and the ROM, which no instruction writes (R22). -/

namespace Sys2Proof.Machine

/-- The machine's dispatch is the one under every matcher, at MATCH (R12, R122). -/
theorem exec_eq_execUnder (i : Instr) (s : State) : exec i s = execUnder Config.matchFn i s := by
  cases i <;> rfl

/-- The machine's step is the one under every matcher, at MATCH (R12, R122). -/
theorem step_eq_stepUnder (s : State) : step s = stepUnder Config.matchFn s := by
  rw [step, stepUnder, funext fun i => funext (exec_eq_execUnder i)]

theorem RunsWork.rom {m : Matcher} {i : Instr} (hi : RunsWork m i) {s t : State} (h : execUnder m i s = .next t) :
    t.rom = s.rom := by
  obtain ⟨f, hf, hexec⟩ := hi
  rw [hexec] at h
  cases h
  unfold finishUop
  split <;> exact hf.rom s

/-- No instruction writes the ROM (R22). -/
theorem execUnder_rom {m : Matcher} {i : Instr} {s t : State} (h : execUnder m i s = .next t) : t.rom = s.rom := by
  cases i with
  | decHdr => exact (runsWork_decHdr m).rom h
  | decFooter => exact (runsWork_decFooter m).rom h
  | decGap => exact (runsWork_decGap m).rom h
  | decGap2 => exact (runsWork_decGap2 m).rom h
  | decBytes lo =>
    by_cases hlo : blockLegal lo = true
    · exact (runsWork_decBytes m hlo).rom h
    · simp [execUnder, runDecBytes, hlo] at h
  | dBit a b =>
    by_cases hab : recordBitExists a b = true
    · have ha : a < 16 := by simp_all [recordBitExists]
      simp only [execUnder, runDBit, hab, if_true] at h
      cases h
      unfold finishBit
      split <;> exact (decoderWork_takeBit m ha b).rom s
    · simp [execUnder, runDBit, hab] at h
  | encode => simp only [execUnder, exec, execEncode] at h; split at h <;> cases h; rfl
  | decode => simp only [execUnder, exec, execDecode] at h; split at h <;> cases h; rfl
  | encBytes lo =>
    simp only [execUnder, exec, execEncBytes, encBlock_eq] at h
    split at h <;> cases h
    rfl
  | eBit a b => simp only [execUnder, exec, execEBit] at h; split at h <;> cases h; rfl
  | encCarrier | encHdr | encFooter | encGap | encGap2 | encEnd | decEnd | symZero | symOne | symHdr | symGap | symGap2 =>
    cases h; rfl

end Sys2Proof.Machine
end

section
/-! What a step keeps, by who moves: the ROM, the canonical form, the sink and its slot; and the replies it withdraws. -/

namespace Sys2Proof.Machine

/-- What a pending command does when the step takes it: ENCODE or DECODE starts on its idle unit (R90, R176). -/
theorem stepUnder_host_cases {m : Matcher} {s t : State} (h : stepUnder m s = .next t) (hreset : s.resetReq = false)
    (hcmd : s.cmd ≠ 0) :
    (s.cmd = 0b01 ∧ t = State.startEncode (State.takeReplies { s with cmd := 0 })) ∨
    (s.cmd = 0b10 ∧ t = State.startDecode (State.takeReplies { s with cmd := 0 })) := by
  rw [stepUnder, cycle_host _ hreset hcmd] at h
  have hcodes : s.cmd = 1 ∨ s.cmd = 2 ∨ s.cmd = 3 := by
    generalize s.cmd = c at hcmd
    revert c
    decide
  obtain hc | hc | hc := hcodes
  · rw [hc, runWord_ok (show decode (.cmd 1) = .ok .encode from rfl), execUnder, exec, execEncode] at h
    split at h <;> cases h
    exact .inl ⟨hc, rfl⟩
  · rw [hc, runWord_ok (show decode (.cmd 2) = .ok .decode from rfl), execUnder, exec, execDecode] at h
    split at h <;> cases h
    exact .inr ⟨hc, rfl⟩
  · rw [hc] at h
    cases h

/-- What a step that is neither a reset nor a move of ENC leaves of the sink where no append waits and no ENCODE is commanded
(R32, R40). -/
theorem stepUnder_sink {m : Matcher} {s t : State} (h : stepUnder m s = .next t) (hreset : s.resetReq = false)
    (hwire : s.wire = none) (hcmd : s.cmd ≠ 0b01) (hmover : s.nextMover ≠ .unit .enc) :
    t.sinkTrain = s.sinkTrain ∧ t.sinkCarrier = s.sinkCarrier := by
  by_cases hnone : s.cmd = 0
  · have hfree : s.inputFree := ⟨hreset, hnone, by simp [hwire]⟩
    by_cases hbusy : s.encBusy = true ∨ s.decBusy = true
    · obtain ⟨u, hu⟩ : ∃ u, s.nextMover = .unit u := ⟨_, nextMover_unit hfree hbusy⟩
      cases u with
      | enc => exact absurd hu hmover
      | dec =>
        rw [stepUnder, cycle_unit _ hu] at h
        have hframe := unitStep_dec_frame h
        obtain ⟨l, hpick⟩ := s.afterPick_eq
        rw [hframe, hpick]
        exact ⟨rfl, rfl⟩
    · obtain ⟨he, hd⟩ : s.encBusy = false ∧ s.decBusy = false := by simpa using hbusy
      rw [stepUnder, cycle_idle _ hfree he hd] at h
      cases h
      exact ⟨rfl, rfl⟩
  · obtain ⟨hc, -⟩ | ⟨-, rfl⟩ := stepUnder_host_cases h hreset hnone
    · exact absurd hc hcmd
    · exact ⟨rfl, rfl⟩

/-- What a step does to the slot of the sink connection: nothing, or it empties it, by a reset or with no ENCODE running (R178). -/
theorem stepUnder_wire {m : Matcher} {s t : State} (h : stepUnder m s = .next t) :
    t.wire = s.wire ∨ (t.wire = none ∧ (s.resetReq = true ∨ s.encBusy = false)) := by
  obtain ⟨hreset, rfl⟩ | rfl | ⟨-, rfl⟩ | ⟨-, rfl⟩ | ⟨hidle, p, -, rfl⟩ | ⟨-, l, hmove⟩ | ⟨-, l, hmove⟩ := cycle_cases h
  · exact .inr ⟨rfl, .inl hreset⟩
  · exact .inl rfl
  · exact .inl rfl
  · exact .inl rfl
  · exact .inr ⟨rfl, .inr hidle⟩
  · exact .inl (by rw [unitStep_enc_frame hmove]; rfl)
  · exact .inl (by rw [unitStep_dec_frame hmove]; rfl)

/-- A step that is no unit's move shows no reply; a unit's move starts with both replies withdrawn (R36, R37). -/
theorem stepUnder_reply_cases {m : Matcher} {s t : State} (h : stepUnder m s = .next t) :
    (t.encReply = false ∧ t.decReply = none) ∨
    (s.encBusy = true ∧ ∃ l, unitStep m .enc (State.takeReplies { s with sched := l }) = .next t) ∨
    (s.decBusy = true ∧ ∃ l, unitStep m .dec (State.takeReplies { s with sched := l }) = .next t) := by
  obtain ⟨-, rfl⟩ | rfl | ⟨-, rfl⟩ | ⟨-, rfl⟩ | ⟨-, p, -, rfl⟩ | hmove := cycle_cases h
  · exact .inl ⟨rfl, rfl⟩
  · exact .inl ⟨rfl, rfl⟩
  · exact .inl ⟨rfl, rfl⟩
  · exact .inl ⟨rfl, rfl⟩
  · exact .inl ⟨rfl, rfl⟩
  · exact .inr hmove

/-- No step writes the ROM (R22). -/
theorem stepUnder_rom {m : Matcher} {s t : State} (h : stepUnder m s = .next t) : t.rom = s.rom := by
  obtain ⟨-, rfl⟩ | rfl | ⟨-, rfl⟩ | ⟨-, rfl⟩ | ⟨-, p, -, rfl⟩ | ⟨-, l, hmove⟩ | ⟨-, l, hmove⟩ := cycle_cases h
  · rfl
  · rfl
  · rfl
  · rfl
  · rfl
  · rw [unitStep_enc_frame hmove]; rfl
  · rw [unitStep_dec_frame hmove]; rfl

/-- Every step keeps the record buffers canonical (R50, R54). -/
theorem stepUnder_buffersCanonical {m : Matcher} {s t : State} (hs : BuffersCanonical s) (h : stepUnder m s = .next t) :
    BuffersCanonical t := by
  obtain ⟨hrec, hacc⟩ := hs
  obtain ⟨-, rfl⟩ | rfl | ⟨-, rfl⟩ | ⟨-, rfl⟩ | ⟨-, p, -, rfl⟩ | ⟨-, l, hmove⟩ | ⟨-, l, hmove⟩ := cycle_cases h
  · exact ⟨rfl, rfl⟩
  · exact ⟨hrec, hacc⟩
  · exact ⟨by simp, hacc⟩
  · exact ⟨hrec, hacc⟩
  · exact ⟨hrec, hacc⟩
  · rw [unitStep_enc_frame hmove]
    exact ⟨hrec, hacc⟩
  · refine ⟨?_, unitStep_dec_wf hmove hacc⟩
    rw [unitStep_dec_frame hmove]
    exact hrec

end Sys2Proof.Machine
end

section
/-! The statements about the ROM, the buffers, the two units, the replies and the sink, assembled from the moves and the steps above. -/

namespace Sys2Proof.Machine

/-- Settles O42: the frames of the moves, and `execUnder_rom` instruction by instruction. -/
theorem romNeverWritten : Obligations.RomNeverWritten :=
  ⟨rfl, fun i s _ h => execUnder_rom (exec_eq_execUnder i s ▸ h), fun s _ h => stepUnder_rom (step_eq_stepUnder s ▸ h)⟩

/-- Settles O43, step kind by step kind; the decoder writes only bits of bytes 0 to 15. -/
theorem buffersStayCanonical : Obligations.BuffersStayCanonical :=
  fun s _ hs h => stepUnder_buffersCanonical hs (step_eq_stepUnder s ▸ h)

/-- Settles O48: the frame of each unit's move, and what the move reads. -/
theorem unitsShareNoMutableState : Obligations.UnitsShareNoMutableState := by
  intro m s t
  refine ⟨fun h => ⟨?_, fun s' => unitStep_enc_reads h⟩, fun h => ⟨?_, fun s' => unitStep_dec_reads h⟩⟩
  · rw [unitStep_enc_frame h]
    exact ⟨⟨rfl, rfl, rfl, rfl, rfl, rfl, rfl⟩, rfl, rfl⟩
  · rw [unitStep_dec_frame h]
    exact ⟨⟨rfl, rfl, rfl, rfl, rfl, rfl, rfl⟩, rfl, rfl⟩

/-- Settles O54: every step first withdraws both replies, and then only a move that ends its transaction delivers one. -/
theorem repliesAreNotKept : Obligations.RepliesAreNotKept := by
  intro m s t h
  obtain ⟨henc, hdec⟩ | ⟨hbusy, l, hmove⟩ | ⟨hbusy, l, hmove⟩ := stepUnder_reply_cases h
  · simp [henc, hdec]
  · have hdec : t.decReply = none := by rw [unitStep_enc_frame hmove]; rfl
    refine ⟨fun hreply => ⟨hbusy, ?_⟩, fun hreply => absurd hdec hreply⟩
    obtain hkept | hended := unitStep_enc_reply hmove
    · simp [hkept] at hreply
    · exact hended
  · have henc : t.encReply = false := by rw [unitStep_dec_frame hmove]; rfl
    refine ⟨fun hreply => absurd hreply (by simp [henc]), fun hreply => ⟨hbusy, ?_⟩⟩
    obtain hkept | hended := unitStep_dec_reply hmove
    · exact absurd hkept hreply
    · exact hended

/-- Settles O55: the slot by `stepUnder_wire`, the sink by who moves. -/
theorem sinkHasNoOtherWriter : Obligations.SinkHasNoOtherWriter := by
  intro s t h
  rw [step_eq_stepUnder] at h
  obtain hkept | ⟨hemptied, hwhen⟩ := stepUnder_wire h
  · exact ⟨fun hw => hkept.trans hw, fun _ _ => hkept, stepUnder_sink h⟩
  · refine ⟨fun _ => hemptied, fun hreset hbusy => ?_, stepUnder_sink h⟩
    simp [hreset, hbusy] at hwhen

end Sys2Proof.Machine
end

section
/-! The frame shows every bit of its record (R26): the four blocks of data bits are segments of the frame. -/

namespace Sys2Proof.Machine

/-- Two records with the same frame have the same Pairs in every slot of the schedule (R83, R86). -/
theorem map_encSegment_eq_of_frame_eq {rom : TimingRom} {r r' : RecordBits} (h : frame rom r = frame rom r') {n : Nat}
    (hn : n < 13) : (encSegment rom r n).map (symPair rom) = (encSegment rom r' n).map (symPair rom) := by
  have hnext := take_encPairsBefore rom r hn
  rw [h, take_encPairsBefore rom r' hn] at hnext
  exact (List.append_cancel_left hnext).symm

/-- A data bit's Pair tells the bit, where ONE and ZERO differ. -/
theorem symPair_bitSym_inj {rom : TimingRom} (hne : symPair rom .one ≠ symPair rom .zero) {v w : Bool}
    (h : symPair rom (bitSym v) = symPair rom (bitSym w)) : v = w := by
  cases v <;> cases w
  · rfl
  · exact absurd h.symm hne
  · exact absurd h hne
  · rfl

/-- Two blocks with the same Pairs have the same 32 bits, where ONE and ZERO differ. -/
theorem recBit_eq_of_blockSyms_eq {rom : TimingRom} (hne : symPair rom .one ≠ symPair rom .zero) {r r' : RecordBits}
    {lo : Nat} (h : (blockSyms r lo).map (symPair rom) = (blockSyms r' lo).map (symPair rom)) {k : Nat} (hk : k < 32) :
    recBit r (8 * lo + k) = recBit r' (8 * lo + k) := by
  have hget := congrArg (·[k]?) h
  simp only [blockSyms_eq, List.getElem?_map, List.getElem?_range hk, Option.map_some, Option.some.injEq] at hget
  exact symPair_bitSym_inj hne hget

/-- Settles O11: the bits of block `lo` are those of the frame's segment at that block's slot of the schedule. -/
theorem frameDeterminesRecord : Obligations.FrameDeterminesRecord := by
  intro rom r r' hne hframe
  have hblock : ∀ q, q < 4 → ∀ k, k < 32 → recBit r (8 * (4 * q) + k) = recBit r' (8 * (4 * q) + k) := by
    intro q hq k hk
    refine recBit_eq_of_blockSyms_eq hne ?_ hk
    interval_cases q
    · exact map_encSegment_eq_of_frame_eq hframe (n := 2) (by decide)
    · exact map_encSegment_eq_of_frame_eq hframe (n := 5) (by decide)
    · exact map_encSegment_eq_of_frame_eq hframe (n := 8) (by decide)
    · exact map_encSegment_eq_of_frame_eq hframe (n := 11) (by decide)
  refine BitVec.eq_of_getLsbD_eq fun j hj => ?_
  have hsplit : 8 * (4 * (j / 32)) + j % 32 = j := by omega
  have hbit := hblock (j / 32) (by omega) (j % 32) (Nat.mod_lt _ (by decide))
  rwa [hsplit, recBit_eq, recBit_eq] at hbit

end Sys2Proof.Machine
end

section
/-! The field view (R27): reading and writing a field, bit by bit. -/

namespace Sys2Proof.Machine

/-- The bits of a record after a field is written (R27). -/
theorem getLsbD_setField (layout : FieldLayout) (f : Field) (v : BitVec (fieldWidth f)) (r : RecordBits) {i : Nat}
    (hi : i < 128) :
    (setField layout f v r).getLsbD i = if inField layout f i then v.getLsbD (i - layout f) else r.getLsbD i := by
  simp [setField, hi]

/-- A write to a field changes no bit outside it, within the record or beyond. -/
theorem getLsbD_setField_outside {layout : FieldLayout} {f : Field} (v : BitVec (fieldWidth f)) (r : RecordBits) {i : Nat}
    (hout : inField layout f i = false) : (setField layout f v r).getLsbD i = r.getLsbD i := by
  by_cases hi : i < 128
  · simp [getLsbD_setField layout f v r hi, hout]
  · rw [BitVec.getLsbD_of_ge _ _ (by omega), BitVec.getLsbD_of_ge _ _ (by omega)]

/-- The bits of a field that is read (R27). -/
theorem getLsbD_getField (layout : FieldLayout) (f : Field) (r : RecordBits) {k : Nat} (hk : k < fieldWidth f) :
    (getField layout f r).getLsbD k = r.getLsbD (layout f + k) := by
  simp [getField, hk]

theorem inField_offset (layout : FieldLayout) {f : Field} {k : Nat} (hk : k < fieldWidth f) :
    inField layout f (layout f + k) = true := by
  simp [inField, hk]

/-- A field inside the record reads back what was written (R27). -/
theorem getField_setField_same {layout : FieldLayout} {f : Field} (hfits : layout f + fieldWidth f ≤ 128)
    (v : BitVec (fieldWidth f)) (r : RecordBits) : getField layout f (setField layout f v r) = v := by
  refine BitVec.eq_of_getLsbD_eq fun k hk => ?_
  rw [getLsbD_getField _ _ _ hk, getLsbD_setField _ _ _ _ (by omega), inField_offset layout hk, if_pos rfl,
    Nat.add_sub_cancel_left]

/-- A field keeps its value when one that shares no bit with it is written (R27). -/
theorem getField_setField_other {layout : FieldLayout} {f g : Field}
    (hdisjoint : ∀ i, inField layout g i = true → inField layout f i = false) (v : BitVec (fieldWidth f)) (r : RecordBits) :
    getField layout g (setField layout f v r) = getField layout g r := by
  refine BitVec.eq_of_getLsbD_eq fun k hk => ?_
  rw [getLsbD_getField _ _ _ hk, getLsbD_getField _ _ _ hk,
    getLsbD_setField_outside v r (hdisjoint _ (inField_offset layout hk))]

/-- Settles O53: the widths by evaluation, the accessors bit by bit. -/
theorem fieldAccess : Obligations.FieldAccess := by
  refine ⟨by decide, fun layout hsound f v r => ?_⟩
  obtain ⟨hfits, hdisjoint⟩ := hsound
  exact ⟨getField_setField_same (hfits f) v r, fun g hne => getField_setField_other (fun i => hdisjoint g f i hne) v r,
    fun i => getLsbD_setField_outside v r⟩

end Sys2Proof.Machine
end

section
/-! The encoder's invariant (R58, R84): ENC's own move keeps it, and at the last slot the sink holds the whole frame. -/

namespace Sys2Proof.Machine

/-- A frame has 140 Pairs (R84). -/
@[simp] theorem length_frame (rom : TimingRom) (r : RecordBits) : (frame rom r).length = 140 := by
  simp [frame, frameSyms, halfSyms]

/-- No ENCODE runs, so there is nothing to be on track of. -/
theorem encodeOnTrack_of_idle {s : State} (hidle : s.encBusy = false) : EncodeOnTrack s :=
  fun hbusy => absurd hbusy (by simp [hidle])

/-- An ENCODE that has just started is on track: its sink is empty (R32, R100). -/
theorem encodeOnTrack_startEncode (s : State) : EncodeOnTrack s.startEncode :=
  fun _ => ⟨by simp, rfl, by simp⟩

/-- An ENCODE that has carried out its whole schedule but END has set the carrier and emitted the frame (R58, R84, R101). -/
theorem EncodeOnTrack.sink_at_end {s : State} (hs : EncodeOnTrack s) (hbusy : s.encBusy = true)
    (hlast : s.encUpc.toNat = 13) :
    s.sinkCarrier = some s.rom.carrierHz ∧ s.sinkTrain = frame s.rom s.encRec.pack := by
  obtain ⟨-, htrain, hcarrier⟩ := hs hbusy
  have hall : encPairsBefore 13 = 140 := rfl
  refine ⟨hcarrier (by omega), ?_⟩
  rw [htrain, hlast, hall, List.take_of_length_le (by simp)]

/-- ENC is done and delivers the reply done, the carrier and the frame of the record in the sink (R100, R110). -/
def EncodeDelivered (rom : TimingRom) (r : RecordBits) (s : State) : Prop :=
  s.encBusy = false ∧ s.encReply = true ∧ s.sinkCarrier = some rom.carrierHz ∧ s.sinkTrain = frame rom r

/-- A running ENCODE on track can move, and stays on track: it goes on to the next slot, or it ends and delivers its result. -/
theorem EncodeOnTrack.move {m : Matcher} {s : State} (hs : EncodeOnTrack s) (hbusy : s.encBusy = true) :
    ∃ t, unitStep m .enc s = .next t ∧ EncodeOnTrack t ∧ (t.encBusy = true → t.encUpc.toNat = s.encUpc.toNat + 1) ∧
      (t.encBusy = true ∨ EncodeDelivered s.rom s.encRec.pack t) := by
  obtain ⟨hupc, htrain, hcarrier⟩ := hs hbusy
  by_cases hlast : s.encUpc.toNat = 13
  · exact ⟨_, unitStep_enc_end m hlast, encodeOnTrack_of_idle rfl, by simp,
      .inr ⟨rfl, rfl, hs.sink_at_end hbusy hlast⟩⟩
  · have hlt : s.encUpc.toNat < 13 := by omega
    have hnext := upc_succ hlt
    refine ⟨_, unitStep_enc_eq m s hlt, fun _ => ⟨?_, ?_, fun _ => ?_⟩, fun _ => hnext, .inl hbusy⟩
    · show (s.encUpc + 1).toNat ≤ 13
      omega
    · simp only [hnext, take_encPairsBefore _ _ hlt, htrain]
    · show (if s.encUpc.toNat = 0 then some s.rom.carrierHz else s.sinkCarrier) = some s.rom.carrierHz
      split
      · rfl
      · exact hcarrier (by omega)

/-- A move of a running ENCODE keeps it on track. -/
theorem unitStep_enc_onTrack {m : Matcher} {s t : State} (h : unitStep m .enc s = .next t) (hbusy : s.encBusy = true)
    (hs : EncodeOnTrack s) : EncodeOnTrack t := by
  obtain ⟨t', h', htrack, -⟩ := hs.move (m := m) hbusy
  cases h.symm.trans h'
  exact htrack

/-- A move of DEC touches nothing of an ENCODE (R21). -/
theorem unitStep_dec_encodeOnTrack {m : Matcher} {s t : State} (h : unitStep m .dec s = .next t) (hs : EncodeOnTrack s) :
    EncodeOnTrack t := by
  rw [unitStep_dec_frame h]
  exact hs

/-- Every step keeps a running ENCODE on track. -/
theorem stepUnder_encodeOnTrack {m : Matcher} {s t : State} (hs : EncodeOnTrack s) (h : stepUnder m s = .next t) :
    EncodeOnTrack t := by
  obtain ⟨-, rfl⟩ | rfl | ⟨-, rfl⟩ | ⟨-, rfl⟩ | ⟨hidle, p, -, rfl⟩ | ⟨hbusy, l, hmove⟩ | ⟨-, l, hmove⟩ := cycle_cases h
  · exact encodeOnTrack_of_idle rfl
  · exact hs
  · exact encodeOnTrack_startEncode _
  · exact hs
  · exact encodeOnTrack_of_idle hidle
  · exact unitStep_enc_onTrack hmove hbusy hs
  · exact unitStep_dec_encodeOnTrack hmove hs

/-- Settles O44, step kind by step kind; an ENCODE on track stays so by its own moves, and no other step touches it. -/
theorem encodeStaysOnTrack : Obligations.EncodeStaysOnTrack :=
  fun s _ hs h => stepUnder_encodeOnTrack hs (step_eq_stepUnder s ▸ h)

end Sys2Proof.Machine
end

section
/-! The decoder's invariant (R59, R124): DEC's own move keeps it, and at the end the reply is the one the train owes. -/

namespace Sys2Proof.Machine

theorem passAt_iff {m : Matcher} {rom : TimingRom} {train : Train} {i : Nat} :
    passAt m rom train i = true ↔ ∃ q, train[i]? = some q ∧ (slotAt rom i).passes m rom q = true := by
  unfold passAt
  cases train[i]? <;> simp

/-- The value of a data bit whose Pair has arrived. -/
theorem valueAt_of_getElem? {m : Matcher} {rom : TimingRom} {train : Train} {j : Nat} {q : Pair}
    (hq : train[dataIndex j]? = some q) : valueAt m rom train j = m q (symPair rom .one) := by
  simp [valueAt, hq]

/-- A train that passes at every position before `n` has at least `n` Pairs. -/
theorem le_length_of_passAt {m : Matcher} {rom : TimingRom} {train : Train} {n : Nat}
    (h : ∀ i, i < n → passAt m rom train i = true) : n ≤ train.length := by
  cases n with
  | zero => exact Nat.zero_le _
  | succ n =>
    obtain ⟨q, hq, -⟩ := passAt_iff.mp (h n (Nat.lt_succ_self n))
    exact (List.getElem?_eq_some_iff.mp hq).1

/-- Every data bit stands among the 140 Pairs of the frame (R85). -/
theorem dataIndex_lt {j : Nat} (hj : j < 128) : dataIndex j < 140 := by
  unfold dataIndex
  split_ifs <;> omega

/-- Every slot of DEC_ROM before END ends within the frame (R85, R87). -/
theorem decPairsBefore_succ_le {n : Nat} (hn : n < 12) : decPairsBefore (n + 1) ≤ 140 := by
  revert n
  decide

/-- The invariant of a running DECODE, its Pairs and bits told by `passAt` and `valueAt`. -/
theorem decodeOnTrack_iff {m : Matcher} {s : State} (hbusy : s.decBusy = true) :
    DecodeOnTrack m s ↔
      s.decUpc.toNat ≤ 12 ∧ s.srcCur = decPairsBefore s.decUpc.toNat ∧
      (∀ i, i < s.srcCur → passAt m s.rom s.srcTrain i = true) ∧
      ∀ j, j < 128 → dataIndex j < s.srcCur → s.decAcc.readBit j = valueAt m s.rom s.srcTrain j := by
  constructor
  · intro hs
    obtain ⟨hupc, hcur, hlen, hpass, hbits⟩ := hs hbusy
    have hpair : ∀ i, i < s.srcCur → ∃ q, s.srcTrain[i]? = some q :=
      fun i hi => ⟨_, List.getElem?_eq_getElem (lt_of_lt_of_le hi hlen)⟩
    refine ⟨hupc, hcur, fun i hi => ?_, fun j hj hi => ?_⟩
    · obtain ⟨q, hq⟩ := hpair i hi
      exact passAt_iff.mpr ⟨q, hq, hpass i q hi hq⟩
    · obtain ⟨q, hq⟩ := hpair _ hi
      rw [hbits j q hj hi hq, valueAt_of_getElem? hq]
  · rintro ⟨hupc, hcur, hpass, hbits⟩ -
    refine ⟨hupc, hcur, le_length_of_passAt hpass, fun i q hi hq => ?_, fun j q hj hi hq => ?_⟩
    · obtain ⟨q', hq', hp⟩ := passAt_iff.mp (hpass i hi)
      cases hq.symm.trans hq'
      exact hp
    · rw [hbits j hj hi, valueAt_of_getElem? hq]

/-- The reply a DECODE owes, position by position, told by `passAt` and `valueAt`. -/
theorem decodeReply_eq (m : Matcher) (rom : TimingRom) (train : Train) :
    decodeReply m rom train =
      if (List.range 140).all (passAt m rom train) then
        some (BitVec.ofFnLE fun j : Fin 128 => valueAt m rom train j)
      else none :=
  rfl

/-- A train with a Pair of the frame missing or not passing is owed the reply none (R133). -/
theorem decodeReply_of_fails {m : Matcher} {rom : TimingRom} {train : Train} {i : Nat} (hi : i < 140)
    (h : passAt m rom train i = false) : decodeReply m rom train = none := by
  rw [decodeReply_eq, if_neg]
  intro hall
  simpa [h] using List.all_eq_true.mp hall i (List.mem_range.mpr hi)

/-- A train whose 140 Pairs pass is owed the record of its data bits, held by any buffer that has them (R124, R130). -/
theorem decodeReply_of_passes {m : Matcher} {rom : TimingRom} {train : Train} {mem : Memory}
    (hpass : ∀ i, i < 140 → passAt m rom train i = true)
    (hbits : ∀ j, j < 128 → mem.readBit j = valueAt m rom train j) : decodeReply m rom train = some mem.pack := by
  rw [decodeReply_eq, if_pos (List.all_eq_true.mpr fun i hi => hpass i (List.mem_range.mp hi)), Memory.pack]
  simp only [fun j : Fin 128 => hbits j j.isLt]

/-- No DECODE runs, so there is nothing to be on track of. -/
theorem decodeOnTrack_of_idle {m : Matcher} {s : State} (hidle : s.decBusy = false) : DecodeOnTrack m s :=
  fun hbusy => absurd hbusy (by simp [hidle])

/-- A DECODE that has just started is on track: its cursor is 0 (R120). -/
theorem decodeOnTrack_startDecode (m : Matcher) (s : State) : DecodeOnTrack m s.startDecode :=
  (decodeOnTrack_iff rfl).mpr ⟨by simp, rfl, by simp, by simp⟩

/-- The accumulator of a DECODE that has carried out its whole schedule but END is the reply owed (R130). -/
theorem DecodeOnTrack.reply_at_end {m : Matcher} {s : State} (hs : DecodeOnTrack m s) (hbusy : s.decBusy = true)
    (hlast : s.decUpc.toNat = 12) : decodeReply m s.rom s.srcTrain = some s.decAcc.pack := by
  obtain ⟨-, hcur, hpass, hbits⟩ := (decodeOnTrack_iff hbusy).mp hs
  have hall : s.srcCur = 140 := by rw [hcur, hlast]; rfl
  rw [hall] at hpass hbits
  exact decodeReply_of_passes hpass fun j hj => hbits j hj (dataIndex_lt hj)

/-- DEC stays on track through a slot whose Pairs it has passed. -/
theorem SegmentPassed.decodeOnTrack {m : Matcher} {s t : State} (hs : DecodeOnTrack m s) (hbusy : s.decBusy = true)
    (hlt : s.decUpc.toNat < 12)
    (hseg : SegmentPassed m s t (decPairsBefore s.decUpc.toNat) (decPairsBefore (s.decUpc.toNat + 1))) :
    DecodeOnTrack m t := by
  obtain ⟨-, hcur, hpass, hbits⟩ := (decodeOnTrack_iff hbusy).mp hs
  have hnext : t.decUpc.toNat = s.decUpc.toNat + 1 := by rw [hseg.upc, upc_succ (by omega)]
  refine (decodeOnTrack_iff (hseg.busy.trans hbusy)).mpr ⟨by omega, by rw [hseg.cur, hnext], fun i hi => ?_,
    fun j hj hi => ?_⟩
  · rw [hseg.rom, hseg.train]
    by_cases hbefore : i < s.srcCur
    · exact hpass i hbefore
    · exact hseg.passes i (by omega) (by rwa [hseg.cur] at hi)
  · rw [hseg.rom, hseg.train, hseg.bits j hj]
    split
    · rfl
    · next hout => exact hbits j hj (by rw [hseg.cur] at hi; omega)

/-- DEC is done and delivers the reply that the train is owed (R120). -/
def DecodeDelivered (m : Matcher) (rom : TimingRom) (train : Train) (s : State) : Prop :=
  s.decBusy = false ∧ s.decReply = some (decodeReply m rom train)

/-- A running DECODE on track can move, and stays on track: it goes on to the next slot, or it ends and delivers the reply that its
train is owed. -/
theorem DecodeOnTrack.move {m : Matcher} {s : State} (hs : DecodeOnTrack m s) (hbusy : s.decBusy = true)
    (hw : s.decAcc.wf = true) :
    ∃ t, unitStep m .dec s = .next t ∧ DecodeOnTrack m t ∧ (t.decBusy = true → t.decUpc.toNat = s.decUpc.toNat + 1) ∧
      (t.decBusy = true ∨ DecodeDelivered m s.rom s.srcTrain t) := by
  obtain ⟨hupc, hcur, -, -⟩ := (decodeOnTrack_iff hbusy).mp hs
  by_cases hlast : s.decUpc.toNat = 12
  · exact ⟨_, unitStep_dec_end m hlast, decodeOnTrack_of_idle rfl, by simp,
      .inr ⟨rfl, by rw [hs.reply_at_end hbusy hlast]; rfl⟩⟩
  · have hlt : s.decUpc.toNat < 12 := by omega
    obtain ⟨t, hmove, hseg | hseg⟩ := unitStep_dec_cases m s hlt hcur hw
    · exact ⟨t, hmove, hseg.decodeOnTrack hs hbusy hlt, fun _ => by rw [hseg.upc, upc_succ (by omega)],
        .inl (hseg.busy.trans hbusy)⟩
    · obtain ⟨i, -, hi, hfails⟩ := hseg.fails
      have hin : i < 140 := lt_of_lt_of_le hi (decPairsBefore_succ_le hlt)
      exact ⟨t, hmove, decodeOnTrack_of_idle hseg.busy, by simp [hseg.busy],
        .inr ⟨hseg.busy, by rw [hseg.reply, decodeReply_of_fails hin hfails]⟩⟩

/-- A move of a running DECODE keeps it on track. -/
theorem unitStep_dec_onTrack {m : Matcher} {s t : State} (h : unitStep m .dec s = .next t) (hbusy : s.decBusy = true)
    (hw : s.decAcc.wf = true) (hs : DecodeOnTrack m s) : DecodeOnTrack m t := by
  obtain ⟨t', h', htrack, -⟩ := hs.move hbusy hw
  cases h.symm.trans h'
  exact htrack

/-- A move of ENC touches nothing of a DECODE (R21). -/
theorem unitStep_enc_decodeOnTrack {m m' : Matcher} {s t : State} (h : unitStep m' .enc s = .next t)
    (hs : DecodeOnTrack m s) : DecodeOnTrack m t := by
  rw [unitStep_enc_frame h]
  exact hs

/-- Every step keeps a running DECODE on track. -/
theorem stepUnder_decodeOnTrack {m : Matcher} {s t : State} (hw : s.decAcc.wf = true) (hs : DecodeOnTrack m s)
    (h : stepUnder m s = .next t) : DecodeOnTrack m t := by
  obtain ⟨-, rfl⟩ | rfl | ⟨-, rfl⟩ | ⟨-, rfl⟩ | ⟨-, p, -, rfl⟩ | ⟨-, l, hmove⟩ | ⟨hbusy, l, hmove⟩ := cycle_cases h
  · exact decodeOnTrack_of_idle rfl
  · exact hs
  · exact hs
  · exact decodeOnTrack_startDecode m _
  · exact hs
  · exact unitStep_enc_decodeOnTrack hmove hs
  · exact unitStep_dec_onTrack hmove hbusy hw hs

/-- Settles O45, step kind by step kind; a DECODE on track stays so by its own moves, and no other step touches it. -/
theorem decodeStaysOnTrack : Obligations.DecodeStaysOnTrack :=
  fun _ _ _ hw hs h => stepUnder_decodeOnTrack hw hs h

end Sys2Proof.Machine
end

section
/-! The moves of the two units commute (R60): each writes one side of the state and reads no other (R21). -/

namespace Sys2Proof.Machine

/-- What belongs to neither unit: the ROM, CMD, the sink connection, the schedule input and the reset request. -/
def State.shared (s : State) : TimingRom × BitVec 2 × Option Pair × List UnitId × Bool :=
  (s.rom, s.cmd, s.wire, s.sched, s.resetReq)

/-- The two sides, the reply ports and what belongs to neither unit are the whole state. -/
theorem State.eq_of_same {a b t u : State} (henct : SameEncSide a t) (hencu : SameEncSide a u) (hdect : SameDecSide b t)
    (hdecu : SameDecSide b u) (hencReply : t.encReply = u.encReply) (hdecReply : t.decReply = u.decReply)
    (hshared : t.shared = u.shared) : t = u := by
  simp only [SameEncSide, SameDecSide, State.shared, Prod.mk.injEq] at henct hencu hdect hdecu hshared
  cases t
  cases u
  simp_all only

/-- What a move of ENC leaves as it is (R21). -/
theorem unitStep_enc_keeps {m : Matcher} {s t : State} (h : unitStep m .enc s = .next t) :
    SameDecSide s t ∧ t.decReply = s.decReply ∧ t.shared = s.shared := by
  rw [unitStep_enc_frame h]
  exact ⟨⟨rfl, rfl, rfl, rfl, rfl, rfl, rfl⟩, rfl, rfl⟩

/-- What a move of DEC leaves as it is (R21). -/
theorem unitStep_dec_keeps {m : Matcher} {s t : State} (h : unitStep m .dec s = .next t) :
    SameEncSide s t ∧ t.encReply = s.encReply ∧ t.shared = s.shared := by
  rw [unitStep_dec_frame h]
  exact ⟨⟨rfl, rfl, rfl, rfl, rfl, rfl, rfl⟩, rfl, rfl⟩

/-- Settles O49: in either order, ENC's side is that of ENC's move from `s`, DEC's side that of DEC's, and the rest is as in `s`. -/
theorem unitMovesCommute : Obligations.UnitMovesCommute := by
  intro m s a b ha hb
  obtain ⟨hadec, hadecReply, hashared⟩ := unitStep_enc_keeps ha
  obtain ⟨hbenc, hbencReply, hbshared⟩ := unitStep_dec_keeps hb
  obtain ⟨t, ht, hbt, htdecReply⟩ := unitStep_dec_reads hb hadec (congrArg Prod.fst hashared)
  obtain ⟨u, hu, hau, huencReply⟩ := unitStep_enc_reads ha hbenc (congrArg Prod.fst hbshared)
  obtain ⟨hat, htencReply, htshared⟩ := unitStep_dec_keeps ht
  obtain ⟨hbu, hudecReply, hushared⟩ := unitStep_enc_keeps hu
  have heq : t = u := by
    refine State.eq_of_same hat hau hbt hbu ?_ ?_ ?_
    · exact htencReply.trans (huencReply hbencReply.symm)
    · exact (hudecReply.trans (htdecReply hadecReply.symm)).symm
    · rw [htshared, hashared, hushared, hbshared]
  exact ⟨t, ht, heq ▸ hu⟩

end Sys2Proof.Machine
end

section
/-! Runs by a measure: moves that keep an invariant and take from a number of moves left until it is 0. -/

namespace Sys2Proof.Machine

variable {move : State → Host.Outcome State Fault Refusal}

/-- A run that starts with a move that answers. -/
theorem runMoves_succ {s t : State} (h : move s = .next t) (n : Nat) : runMoves move (n + 1) s = runMoves move n t := by
  rw [runMoves, h]

theorem reachesWithin_of_move {s t : State} {P : State → Prop} (h : move s = .next t) (hP : P t) (n : Nat) :
    ReachesWithin move (n + 1) s P :=
  ⟨1, t, le_refl 1, by omega, runMoves_succ h 0, hP⟩

theorem ReachesWithin.after_move {s t : State} {P : State → Prop} {n : Nat} (h : move s = .next t)
    (hreach : ReachesWithin move n t P) : ReachesWithin move (n + 1) s P := by
  obtain ⟨k, u, -, hk, hrun, hP⟩ := hreach
  exact ⟨k + 1, u, by omega, by omega, (runMoves_succ h k).trans hrun, hP⟩

/-- Moves that keep `J` and count `left` down run until it is 0. -/
theorem runMoves_of_countdown {J : State → Prop} {left : State → Nat}
    (hmove : ∀ u, J u → ∃ v, move u = .next v ∧ J v ∧ left v ≤ left u - 1) (n : Nat) (s : State) (hs : J s)
    (hleft : left s ≤ n) : ∃ u, runMoves move n s = .next u ∧ J u ∧ left u = 0 := by
  induction n generalizing s with
  | zero => exact ⟨s, rfl, hs, by omega⟩
  | succ n ih =>
    obtain ⟨v, hv, hJ, hless⟩ := hmove s hs
    rw [runMoves_succ hv]
    exact ih v hJ (by omega)

/-- Moves that keep `J` and count `left` down while `busy` lasts reach the end of `busy`, and `P` if it ends in `P`. -/
theorem reachesWithin_of_countdown {J P : State → Prop} {left : State → Nat} {busy : State → Bool}
    (hpos : ∀ u, J u → busy u = true → 0 < left u)
    (hmove : ∀ u, J u → ∃ v, move u = .next v ∧ J v ∧ left v ≤ left u - 1 ∧ (busy u = true → busy v = true ∨ P v))
    (n : Nat) (s : State) (hs : J s) (hbusy : busy s = true) (hleft : left s ≤ n) : ReachesWithin move n s P := by
  induction n generalizing s with
  | zero => exact absurd (hpos s hs hbusy) (by omega)
  | succ n ih =>
    obtain ⟨v, hv, hJ, hless, hgoes⟩ := hmove s hs
    obtain hstill | hP := hgoes hbusy
    · exact (ih v hJ hstill (by omega)).after_move hv
    · exact reachesWithin_of_move hv hP n

end Sys2Proof.Machine
end

section
/-! What a step does where no input waits: one move of a busy unit, or nothing. -/

namespace Sys2Proof.Machine

theorem Quiet.inputFree {s : State} (hs : Quiet s) : s.inputFree := by
  obtain ⟨hreset, hcmd, hwire⟩ := hs
  exact ⟨hreset, hcmd, by simp [hwire]⟩

/-- Where no input waits, a step is a move of a busy unit, whatever the schedule input says, or it only withdraws the replies. -/
theorem stepUnder_of_quiet (m : Matcher) {s : State} (hs : Quiet s) :
    (s.encBusy = true ∧ ∃ l, stepUnder m s = unitStep m .enc (State.takeReplies { s with sched := l })) ∨
    (s.decBusy = true ∧ ∃ l, stepUnder m s = unitStep m .dec (State.takeReplies { s with sched := l })) ∨
    (s.encBusy = false ∧ s.decBusy = false ∧ stepUnder m s = .next s.takeReplies) := by
  obtain ⟨l, hpick⟩ := s.afterPick_eq
  by_cases hbusy : s.encBusy = true ∨ s.decBusy = true
  · have hmover := nextMover_unit hs.inputFree hbusy
    have hstep := cycle_unit (execUnder m) hmover
    rw [hpick] at hstep
    cases henc : s.encBusy <;> cases hdec : s.decBusy <;> simp only [henc, hdec] at hstep hbusy
    · simp at hbusy
    · exact .inr (.inl ⟨rfl, l, hstep⟩)
    · exact .inl ⟨rfl, l, hstep⟩
    · cases hhead : s.sched.headD .enc <;> simp only [hhead] at hstep
      · exact .inl ⟨rfl, l, hstep⟩
      · exact .inr (.inl ⟨rfl, l, hstep⟩)
  · obtain ⟨henc, hdec⟩ : s.encBusy = false ∧ s.decBusy = false := by simpa using hbusy
    exact .inr (.inr ⟨henc, hdec, cycle_idle _ hs.inputFree henc hdec⟩)

end Sys2Proof.Machine
end

section
/-! Both transactions at once (R60): the invariant of a run in which no input waits, and the moves it has left. -/

namespace Sys2Proof.Machine

/-- A run of both units with ROM `rom`, record `r` in ENC and train `train` in DEC: no input waits; each unit that still runs is on
track; and where ENC is done, the sink holds its result. -/
structure BothOnTrack (m : Matcher) (rom : TimingRom) (r : RecordBits) (train : Train) (s : State) : Prop where
  quiet : Quiet s
  sameRom : s.rom = rom
  sameRec : s.encRec.pack = r
  sameTrain : s.srcTrain = train
  wf : s.decAcc.wf = true
  enc : EncodeOnTrack s
  dec : DecodeOnTrack m s
  sink : s.encBusy = false → s.sinkCarrier = some rom.carrierHz ∧ s.sinkTrain = frame rom r

/-- The moves a unit has left at most: the slots of its schedule of `n` slots from its index on, none where it is idle. -/
def slotsLeft (n : Nat) (busy : Bool) (upc : BitVec 4) : Nat := if busy then n - upc.toNat else 0

theorem slotsLeft_le (n : Nat) (busy : Bool) (upc : BitVec 4) : slotsLeft n busy upc ≤ n := by
  unfold slotsLeft
  split <;> omega

/-- A unit at a slot has a move left, and fewer where it is at the next slot or idle. -/
theorem slotsLeft_lt {n : Nat} {upc upc' : BitVec 4} {busy' : Bool} (hslot : upc.toNat < n)
    (hnext : busy' = true → upc'.toNat = upc.toNat + 1) : slotsLeft n busy' upc' < slotsLeft n true upc := by
  cases busy' with
  | false =>
    simp only [slotsLeft, if_true, Bool.false_eq_true, if_false]
    omega
  | true =>
    have hupc' := hnext rfl
    simp only [slotsLeft, if_true]
    omega

/-- The moves both units have left at most (R86, R87). -/
def State.movesLeft (s : State) : Nat := slotsLeft 14 s.encBusy s.encUpc + slotsLeft 13 s.decBusy s.decUpc

theorem State.movesLeft_le (s : State) : s.movesLeft ≤ 27 :=
  Nat.add_le_add (slotsLeft_le 14 _ _) (slotsLeft_le 13 _ _)

variable {m : Matcher} {rom : TimingRom} {r : RecordBits} {train : Train} {s : State}

/-- While a unit runs, moves are left. -/
theorem BothOnTrack.movesLeft_pos (hs : BothOnTrack m rom r train s) (hbusy : s.encBusy = true ∨ s.decBusy = true) :
    0 < s.movesLeft := by
  unfold State.movesLeft slotsLeft
  obtain hbusy | hbusy := hbusy
  · obtain ⟨hupc, -, -⟩ := hs.enc hbusy
    rw [hbusy, if_pos rfl]
    omega
  · obtain ⟨hupc, -, -⟩ := hs.dec hbusy
    rw [hbusy, if_pos rfl]
    omega

/-- With no move left, both units are idle. -/
theorem BothOnTrack.idle (hs : BothOnTrack m rom r train s) (hleft : s.movesLeft = 0) :
    s.encBusy = false ∧ s.decBusy = false := by
  have hbusy : ¬(s.encBusy = true ∨ s.decBusy = true) := fun hbusy => absurd hleft (hs.movesLeft_pos hbusy).ne'
  simpa using hbusy

/-- The withdrawal of replies and the reading of the schedule input are seen by neither transaction. -/
theorem BothOnTrack.picked (hs : BothOnTrack m rom r train s) (l : List UnitId) :
    BothOnTrack m rom r train (State.takeReplies { s with sched := l }) :=
  ⟨hs.quiet, hs.sameRom, hs.sameRec, hs.sameTrain, hs.wf, hs.enc, hs.dec, hs.sink⟩

/-- A move of ENC keeps both on track and leaves DEC running; it takes from the moves left, and if it ends the ENCODE it delivers. -/
theorem BothOnTrack.encMove (hs : BothOnTrack m rom r train s) (hbusy : s.encBusy = true) :
    ∃ t, unitStep m .enc s = .next t ∧ BothOnTrack m rom r train t ∧ t.movesLeft < s.movesLeft ∧
      (t.encBusy = true ∨ EncodeDelivered rom r t) ∧ t.decBusy = s.decBusy := by
  obtain ⟨t, hmove, htrack, hupc, hgoes⟩ := hs.enc.move (m := m) hbusy
  rw [hs.sameRom, hs.sameRec] at hgoes
  have hsink : t.encBusy = false → t.sinkCarrier = some rom.carrierHz ∧ t.sinkTrain = frame rom r := by
    obtain hstill | ⟨-, -, hresult⟩ := hgoes
    · simp [hstill]
    · exact fun _ => hresult
  have hless : t.movesLeft < s.movesLeft := by
    have hslot : s.encUpc.toNat < 14 := Nat.lt_succ_of_le (hs.enc hbusy).1
    rw [State.movesLeft, State.movesLeft, hbusy, unitStep_enc_frame hmove]
    exact Nat.add_lt_add_right (slotsLeft_lt hslot hupc) _
  refine ⟨t, hmove, ?_, hless, hgoes, by rw [unitStep_enc_frame hmove]⟩
  rw [unitStep_enc_frame hmove] at htrack hsink ⊢
  exact ⟨hs.quiet, hs.sameRom, hs.sameRec, hs.sameTrain, hs.wf, htrack, hs.dec, hsink⟩

/-- A move of DEC keeps both on track and leaves ENC running; it takes from the moves left, and if it ends the DECODE it delivers. -/
theorem BothOnTrack.decMove (hs : BothOnTrack m rom r train s) (hbusy : s.decBusy = true) :
    ∃ t, unitStep m .dec s = .next t ∧ BothOnTrack m rom r train t ∧ t.movesLeft < s.movesLeft ∧
      (t.decBusy = true ∨ DecodeDelivered m rom train t) ∧ t.encBusy = s.encBusy := by
  obtain ⟨t, hmove, htrack, hupc, hgoes⟩ := hs.dec.move hbusy hs.wf
  rw [hs.sameRom, hs.sameTrain] at hgoes
  have hwf := unitStep_dec_wf hmove hs.wf
  have hless : t.movesLeft < s.movesLeft := by
    have hslot : s.decUpc.toNat < 13 := Nat.lt_succ_of_le (hs.dec hbusy).1
    rw [State.movesLeft, State.movesLeft, hbusy, unitStep_dec_frame hmove]
    exact Nat.add_lt_add_left (slotsLeft_lt hslot hupc) _
  refine ⟨t, hmove, ?_, hless, hgoes, by rw [unitStep_dec_frame hmove]⟩
  rw [unitStep_dec_frame hmove] at htrack hwf ⊢
  exact ⟨hs.quiet, hs.sameRom, hs.sameRec, hs.sameTrain, hwf, hs.enc, htrack, hs.sink⟩

/-- A step from both on track, whatever the schedule input says: both stay on track, the moves left go down while there are any, and a
transaction that the step ends is delivered. -/
theorem BothOnTrack.step (hs : BothOnTrack m rom r train s) :
    ∃ t, stepUnder m s = .next t ∧ BothOnTrack m rom r train t ∧ t.movesLeft ≤ s.movesLeft - 1 ∧
      (s.encBusy = true → t.encBusy = true ∨ EncodeDelivered rom r t) ∧
      (s.decBusy = true → t.decBusy = true ∨ DecodeDelivered m rom train t) := by
  obtain ⟨hbusy, l, hstep⟩ | ⟨hbusy, l, hstep⟩ | ⟨henc, hdec, hstep⟩ := stepUnder_of_quiet m hs.quiet
  · obtain ⟨t, hmove, ht, hless, hgoes, hother⟩ := (hs.picked l).encMove hbusy
    exact ⟨t, hstep.trans hmove, ht, Nat.le_sub_one_of_lt hless, fun _ => hgoes, fun hd => .inl (hother.trans hd)⟩
  · obtain ⟨t, hmove, ht, hless, hgoes, hother⟩ := (hs.picked l).decMove hbusy
    exact ⟨t, hstep.trans hmove, ht, Nat.le_sub_one_of_lt hless, fun he => .inl (hother.trans he), fun _ => hgoes⟩
  · have hnone : s.takeReplies.movesLeft = 0 := by
      simp [State.movesLeft, slotsLeft, henc, hdec]
    exact ⟨_, hstep, hs.picked s.sched, by omega, fun he => absurd he (by simp [henc]), fun hd => absurd hd (by simp [hdec])⟩

/-- Within the moves left of both, a running ENCODE is delivered (R60, R110). -/
theorem BothOnTrack.encodeDelivered (hs : BothOnTrack m rom r train s) (hbusy : s.encBusy = true) {n : Nat}
    (hleft : s.movesLeft ≤ n) : ReachesWithin (stepUnder m) n s (EncodeDelivered rom r) := by
  refine reachesWithin_of_countdown (J := BothOnTrack m rom r train) (busy := State.encBusy) (fun u hu hb => ?_)
    (fun u hu => ?_) n s hs hbusy hleft
  · exact hu.movesLeft_pos (.inl hb)
  · obtain ⟨v, hv, hboth, hless, henc, -⟩ := hu.step
    exact ⟨v, hv, hboth, hless, henc⟩

/-- Within the moves left of both, a running DECODE is delivered (R60). -/
theorem BothOnTrack.decodeDelivered (hs : BothOnTrack m rom r train s) (hbusy : s.decBusy = true) {n : Nat}
    (hleft : s.movesLeft ≤ n) : ReachesWithin (stepUnder m) n s (DecodeDelivered m rom train) := by
  refine reachesWithin_of_countdown (J := BothOnTrack m rom r train) (busy := State.decBusy) (fun u hu hb => ?_)
    (fun u hu => ?_) n s hs hbusy hleft
  · exact hu.movesLeft_pos (.inr hb)
  · obtain ⟨v, hv, hboth, hless, -, hdec⟩ := hu.step
    exact ⟨v, hv, hboth, hless, hdec⟩

/-- In as many steps as moves are left, or more, both units come to rest, the encode's result in the sink (R60, R110). -/
theorem BothOnTrack.comesToRest (hs : BothOnTrack m rom r train s) {n : Nat} (hleft : s.movesLeft ≤ n) :
    ∃ u, runMoves (stepUnder m) n s = .next u ∧ u.encBusy = false ∧ u.decBusy = false ∧
      u.sinkCarrier = some rom.carrierHz ∧ u.sinkTrain = frame rom r := by
  have hmove : ∀ u, BothOnTrack m rom r train u →
      ∃ v, stepUnder m u = .next v ∧ BothOnTrack m rom r train v ∧ v.movesLeft ≤ u.movesLeft - 1 := by
    intro u hu
    obtain ⟨v, hv, hboth, hless, -, -⟩ := hu.step
    exact ⟨v, hv, hboth, hless⟩
  obtain ⟨u, hrun, hboth, hnone⟩ := runMoves_of_countdown hmove n s hs hleft
  obtain ⟨henc, hdec⟩ := hboth.idle hnone
  exact ⟨u, hrun, henc, hdec, hboth.sink henc⟩

end Sys2Proof.Machine
end

section
/-! The statement about interleavings: the two units have at most 27 moves left, wherever they stand. -/

namespace Sys2Proof.Machine

/-- Settles O50: each step is a move of a unit that has moves left, and each transaction runs on track to its own end. -/
theorem everyInterleavingGivesTheSameResults : Obligations.EveryInterleavingGivesTheSameResults := by
  intro m s hquiet henc hdec hencTrack hdecTrack hwf
  have hs : BothOnTrack m s.rom s.encRec.pack s.srcTrain s :=
    ⟨hquiet, rfl, rfl, rfl, hwf, hencTrack, hdecTrack, fun hidle => absurd henc (by simp [hidle])⟩
  exact ⟨hs.comesToRest s.movesLeft_le, hs.encodeDelivered henc s.movesLeft_le, hs.decodeDelivered hdec s.movesLeft_le⟩

end Sys2Proof.Machine
end

section
/-! The encoding tables in both directions (R72, R86 to R90): the fields of a micro-operation word, the decoder op by op, and the words
of the symbols. -/

namespace Sys2Proof

/-! ### Micro-operation words (R88, R89) -/

@[simp] theorem uopOp_uopWord (op : BitVec 3) (arg : BitVec 5) : uopOp (uopWord op arg) = op :=
  BitVec.extractLsb'_append_eq_left

@[simp] theorem uopArg_uopWord (op : BitVec 3) (arg : BitVec 5) : uopArg (uopWord op arg) = arg :=
  BitVec.extractLsb'_append_eq_right

/-- A micro-operation word is its op and its arg (R88). -/
theorem uopWord_uopOp_uopArg (w : BitVec 8) : uopWord (uopOp w) (uopArg w) = w :=
  (BitVec.extractLsb'_append_extractLsb'_eq_extractLsb' rfl).trans BitVec.extractLsb'_eq_self

/-- The block addresses are 0, 4, 8 and 12 (R88). -/
theorem blockLegal_iff {lo : BitVec 5} : Machine.blockLegal lo = true ↔ lo = 0 ∨ lo = 4 ∨ lo = 8 ∨ lo = 12 := by
  simp only [Machine.blockLegal, Bool.or_eq_true, beq_iff_eq, or_assoc]

theorem withZeroArg_eq_ok_iff {arg : BitVec 5} {i j : Instr} : withZeroArg arg i = .ok j ↔ arg = 0 ∧ i = j := by
  unfold withZeroArg; split <;> simp_all

theorem withZeroArg_eq_error_iff {arg : BitVec 5} {i : Instr} : (∃ why, withZeroArg arg i = .error why) ↔ arg ≠ 0 := by
  unfold withZeroArg; split <;> simp_all

theorem decodeUop_bytes (u : UnitId) (arg : BitVec 5) :
    decodeUop u (uopWord 0b010 arg) =
      if Machine.blockLegal arg then .ok (forUnit u (.encBytes arg) (.decBytes arg)) else .error .illegalArg := by
  simp [decodeUop]

theorem decodeUop_reserved (u : UnitId) (arg : BitVec 5) : decodeUop u (uopWord 0b111 arg) = .error .reservedOp := by
  simp [decodeUop]

theorem decodeUop_carrier_dec (arg : BitVec 5) : decodeUop .dec (uopWord 0b000 arg) = .error .carrierInDec := by
  simp [decodeUop]

/-- Every other op is one micro-operation of the unit, which takes no operand (R88). -/
theorem decodeUop_no_operand {u : UnitId} {op : BitVec 3} (hbytes : op ≠ 0b010) (hreserved : op ≠ 0b111)
    (hcarrier : ¬(u = .dec ∧ op = 0b000)) :
    ∃ i, WellFormed i ∧ encode i = some (.uop u (uopWord op 0)) ∧
      ∀ arg, decodeUop u (uopWord op arg) = withZeroArg arg i := by
  have hops : op = 0b000 ∨ op = 0b001 ∨ op = 0b011 ∨ op = 0b100 ∨ op = 0b101 ∨ op = 0b110 := by
    clear hcarrier; revert op; decide
  obtain rfl | rfl | rfl | rfl | rfl | rfl := hops
  · cases u
    · exact ⟨.encCarrier, rfl, rfl, fun arg => by simp [decodeUop]⟩
    · exact absurd ⟨rfl, rfl⟩ hcarrier
  · exact ⟨forUnit u .encHdr .decHdr, by cases u <;> rfl, by cases u <;> rfl, fun arg => by simp [decodeUop]⟩
  · exact ⟨forUnit u .encFooter .decFooter, by cases u <;> rfl, by cases u <;> rfl, fun arg => by simp [decodeUop]⟩
  · exact ⟨forUnit u .encGap .decGap, by cases u <;> rfl, by cases u <;> rfl, fun arg => by simp [decodeUop]⟩
  · exact ⟨forUnit u .encGap2 .decGap2, by cases u <;> rfl, by cases u <;> rfl, fun arg => by simp [decodeUop]⟩
  · exact ⟨forUnit u .encEnd .decEnd, by cases u <;> rfl, by cases u <;> rfl, fun arg => by simp [decodeUop]⟩

/-- A micro-operation word is refused where its op is reserved, its arg no operand of its op, or its op no op of the unit (R89). -/
theorem decodeUop_eq_error_iff (u : UnitId) (op : BitVec 3) (arg : BitVec 5) :
    (∃ why, decodeUop u (uopWord op arg) = .error why) ↔
      (op = 0b111 ∨ (op ≠ 0b010 ∧ arg ≠ 0) ∨ (op = 0b010 ∧ ¬Machine.blockLegal arg = true) ∨ (u = .dec ∧ op = 0b000)) := by
  by_cases hbytes : op = 0b010
  · subst hbytes
    rw [decodeUop_bytes]
    cases Machine.blockLegal arg <;> simp
  by_cases hreserved : op = 0b111
  · subst hreserved
    exact iff_of_true ⟨_, decodeUop_reserved u arg⟩ (.inl rfl)
  by_cases hcarrier : u = .dec ∧ op = 0b000
  · obtain ⟨rfl, rfl⟩ := hcarrier
    exact iff_of_true ⟨_, decodeUop_carrier_dec arg⟩ (.inr (.inr (.inr ⟨rfl, rfl⟩)))
  obtain ⟨i, -, -, hdecode⟩ := decodeUop_no_operand hbytes hreserved hcarrier
  rw [hdecode, withZeroArg_eq_error_iff]
  tauto

/-- A micro-operation word that is read as an instruction is the word of that instruction, whose operand is legal (R88, R89). -/
theorem encode_of_decodeUop {u : UnitId} {w : BitVec 8} {i : Instr} (h : decodeUop u w = .ok i) :
    WellFormed i ∧ encode i = some (.uop u w) := by
  obtain ⟨op, arg, rfl⟩ : ∃ op arg, uopWord op arg = w := ⟨_, _, uopWord_uopOp_uopArg w⟩
  have haccepted : ¬∃ why, decodeUop u (uopWord op arg) = .error why := by simp [h]
  simp only [decodeUop_eq_error_iff, not_or] at haccepted
  obtain ⟨hreserved, -, hlegal, hcarrier⟩ := haccepted
  by_cases hbytes : op = 0b010
  · subst hbytes
    have hlegal : Machine.blockLegal arg = true := by simpa using hlegal
    rw [decodeUop_bytes, if_pos hlegal] at h
    cases h
    cases u
    · exact ⟨hlegal, rfl⟩
    · exact ⟨hlegal, rfl⟩
  · obtain ⟨j, hwf, hencode, hdecode⟩ := decodeUop_no_operand hbytes hreserved hcarrier
    obtain ⟨rfl, rfl⟩ := withZeroArg_eq_ok_iff.mp ((hdecode arg).symm.trans h)
    exact ⟨hwf, hencode⟩

/-! ### Commands and symbols (R72, R90) -/

theorem encode_of_decodeCmd {c : BitVec 2} {i : Instr} (h : decodeCmd c = .ok i) :
    WellFormed i ∧ encode i = some (.cmd c) := by
  obtain rfl | rfl | rfl | rfl : c = 0b00 ∨ c = 0b01 ∨ c = 0b10 ∨ c = 0b11 := by
    clear h; revert c; decide
  · cases h
  · cases h; exact ⟨rfl, rfl⟩
  · cases h; exact ⟨rfl, rfl⟩
  · cases h

/-- The word of a symbol's instruction is the PAIR32 word that writes the symbol down (R72). -/
theorem encode_symInstr_of_symOfWord {w : BitVec 32} {y : Sym} (h : symOfWord w = some y) :
    WellFormed (symInstr y) ∧ encode (symInstr y) = some (.wire w) := by
  unfold symOfWord at h
  split_ifs at h with hzero hone hhdr hgap hgap2 <;> cases h
  · exact ⟨rfl, hzero ▸ rfl⟩
  · exact ⟨rfl, hone ▸ rfl⟩
  · exact ⟨rfl, hhdr ▸ rfl⟩
  · exact ⟨rfl, hgap ▸ rfl⟩
  · exact ⟨rfl, hgap2 ▸ rfl⟩

theorem encode_of_decodeWire {w : BitVec 32} {i : Instr} (h : decodeWire w = .ok i) :
    WellFormed i ∧ encode i = some (.wire w) := by
  unfold decodeWire at h
  split at h
  next y hy => cases h; exact encode_symInstr_of_symOfWord hy
  next => cases h

end Sys2Proof
end

section
/-! The statements about the encoding tables (R72, R86 to R90). -/

namespace Sys2Proof

/-- Settles O1, instruction by instruction; the one operand a word has is the legal arg of BYTES. -/
theorem decodeInvertsEncode : Obligations.DecodeInvertsEncode := by
  intro i c hwf hencode
  cases i with
  | encBytes lo => cases hencode; exact (decodeUop_bytes .enc lo).trans (if_pos hwf)
  | decBytes lo => cases hencode; exact (decodeUop_bytes .dec lo).trans (if_pos hwf)
  | eBit | dBit => cases hencode
  | encode | decode | encCarrier | encHdr | encFooter | encGap | encGap2 | encEnd | decHdr | decFooter | decGap | decGap2
  | decEnd | symZero | symOne | symHdr | symGap | symGap2 => cases hencode; rfl

/-- Settles O2, layer by layer. -/
theorem encodeInvertsDecode : Obligations.EncodeInvertsDecode := by
  intro i c h
  cases c with
  | cmd c => exact encode_of_decodeCmd h
  | uop u w => exact encode_of_decodeUop h
  | wire w => exact encode_of_decodeWire h

/-- Every word of a schedule ROM decodes (R86, R87). -/
theorem decode_of_mem_unitRom {u : UnitId} {w : BitVec 8} (hw : w ∈ Machine.unitRom u) : ∃ i, decode (.uop u w) = .ok i := by
  obtain ⟨program, hprogram⟩ : ∃ program : List Instr,
      ∀ n : Nat, ((Machine.unitRom u)[n]?).map (fun w => decode (.uop u w)) = (program[n]?).map Except.ok := by
    cases u
    · exact ⟨_, Machine.decode_encRom⟩
    · exact ⟨_, Machine.decode_decRom⟩
  obtain ⟨n, hn⟩ := List.mem_iff_getElem?.mp hw
  have hslot := hprogram n
  rw [hn] at hslot
  obtain ⟨i, -, hi⟩ := Option.map_eq_some_iff.mp hslot.symm
  exact ⟨i, hi.symm⟩

/-- Settles O3: the refused words by op and arg, the schedules' words by what they decode to. -/
theorem reservedUopWordsRefused : Obligations.ReservedUopWordsRefused := by
  refine ⟨fun u w => ?_, fun u w => decode_of_mem_unitRom⟩
  have hrefused := decodeUop_eq_error_iff u (uopOp w) (uopArg w)
  rwa [uopWord_uopOp_uopArg, blockLegal_iff] at hrefused

/-- Settles O5: the words as they stand in the ROMs, and each decoded. -/
theorem scheduleWords : Obligations.ScheduleWords :=
  ⟨rfl, rfl, rfl, rfl⟩

/-- A symbol is the symbol of its code (R72). -/
theorem symOfCode_symCode (y : Sym) : Machine.symOfCode (Machine.symCode y) = some y := by
  cases y <;> rfl

/-- The code of a data bit's symbol is the bit (R72, R79). -/
theorem symCode_bitSym (v : Bool) : Machine.symCode (Machine.bitSym v) = if v then 1 else 0 := by
  cases v <;> rfl

/-- Settles O6: the Pairs from the hardwired ROM, the words and codes from their tables. -/
theorem canonicalSymbols : Obligations.CanonicalSymbols :=
  ⟨rfl, rfl, rfl, rfl, rfl, rfl, rfl, rfl, rfl, rfl, rfl, rfl, rfl, rfl, rfl, rfl, rfl, rfl, rfl, rfl, rfl, rfl, rfl,
    symOfCode_symCode, symCode_bitSym⟩

end Sys2Proof
end

section
/-! The symbol at every index of a frame, from the halves it is built of (R80 to R85). -/

namespace Sys2Proof.Machine

/-- Data bit `k` of a block stands at index `k` (R80, R81). -/
theorem getElem?_blockSyms (r : RecordBits) (lo : Nat) {k : Nat} (hk : k < 32) :
    (blockSyms r lo)[k]? = some (bitSym (recBit r (8 * lo + k))) := by
  rw [blockSyms_eq, List.getElem?_map, List.getElem?_range hk, Option.map_some]

/-- The footer symbols are those of the ROM's pattern, in its order (R82). -/
theorem getElem?_footerSyms (rom : TimingRom) {k : Nat} (hk : k < 3) :
    (footerSyms rom)[k]? = some (bitSym (rom.footerPattern.getLsbD k)) := by
  interval_cases k <;> rfl

/-- A half has 70 symbols (R83). -/
@[simp] theorem length_halfSyms (rom : TimingRom) (r : RecordBits) (h : Nat) : (halfSyms rom r h).length = 70 := by
  simp [halfSyms]

/-- A frame has 140 symbols (R84). -/
@[simp] theorem length_frameSyms (rom : TimingRom) (r : RecordBits) : (frameSyms rom r).length = 140 := by
  simp [frameSyms]

/-- The position map of a frame is that of its halves, 70 indices each (R84, R85). -/
theorem slotAt_half (rom : TimingRom) (h : Nat) {i : Nat} (hi : i < 70) : slotAt rom (70 * h + i) = slotInHalf rom h i := by
  have hdiv : (70 * h + i) / 70 = h := by omega
  have hmod : (70 * h + i) % 70 = i := by omega
  rw [slotAt, hdiv, hmod]

/-- The position map of the first block of a half (R85). -/
theorem slotInHalf_first (rom : TimingRom) (h : Nat) {k : Nat} (hk : k < 32) :
    slotInHalf rom h (1 + k) = .data (64 * h + k) := by
  rw [slotInHalf, if_neg (by omega), if_pos (by omega), Nat.add_sub_cancel_left]

/-- The position map of the footer (R85). -/
theorem slotInHalf_footer (rom : TimingRom) (h : Nat) {k : Nat} (hk : k < 3) :
    slotInHalf rom h (33 + k) = .framing (bitSym (rom.footerPattern.getLsbD k)) := by
  rw [slotInHalf, if_neg (by omega), if_neg (by omega), if_pos (by omega), Nat.add_sub_cancel_left]

/-- The position map of the second block of a half (R85). -/
theorem slotInHalf_second (rom : TimingRom) (h : Nat) {k : Nat} (hk : k < 32) :
    slotInHalf rom h (37 + k) = .data (64 * h + 32 + k) := by
  rw [slotInHalf, if_neg (by omega), if_neg (by omega), if_neg (by omega), if_neg (by omega), if_pos (by omega),
    Nat.add_sub_cancel_left]

/-- The part of a list that stands at index `n`. -/
theorem getElem?_append_middle {α : Type} {l first middle last : List α} {n k : Nat} (hl : l = first ++ (middle ++ last))
    (hn : first.length = n) (hk : k < middle.length) : l[n + k]? = middle[k]? := by
  rw [hl, ← hn, List.getElem?_append_right (Nat.le_add_right _ _), Nat.add_sub_cancel_left, List.getElem?_append_left hk]

/-- The six parts of a half: header, first block, footer, gap, second block, double gap (R83). -/
theorem half_index_cases {i : Nat} (hi : i < 70) :
    i = 0 ∨ (∃ k < 32, i = 1 + k) ∨ (∃ k < 3, i = 33 + k) ∨ i = 36 ∨ (∃ k < 32, i = 37 + k) ∨ i = 69 := by
  obtain h | h | h | h | h | h : i = 0 ∨ (1 ≤ i ∧ i < 33) ∨ (33 ≤ i ∧ i < 36) ∨ i = 36 ∨ (37 ≤ i ∧ i < 69) ∨ i = 69 := by
    omega
  · exact .inl h
  · exact .inr (.inl ⟨i - 1, by omega⟩)
  · exact .inr (.inr (.inl ⟨i - 33, by omega⟩))
  · exact .inr (.inr (.inr (.inl h)))
  · exact .inr (.inr (.inr (.inr (.inl ⟨i - 37, by omega⟩))))
  · exact .inr (.inr (.inr (.inr (.inr h))))

/-- At every index of a half stands the symbol that the position map names (R83, R85). -/
theorem getElem?_halfSyms (rom : TimingRom) (r : RecordBits) (h : Nat) {i : Nat} (hi : i < 70) :
    (halfSyms rom r h)[i]? = some ((slotInHalf rom h i).sym r) := by
  have hfirst : 8 * (8 * h) = 64 * h := by omega
  have hsecond : 8 * (8 * h + 4) = 64 * h + 32 := by omega
  obtain rfl | ⟨k, hk, rfl⟩ | ⟨k, hk, rfl⟩ | rfl | ⟨k, hk, rfl⟩ | rfl := half_index_cases hi
  · rfl
  · rw [slotInHalf_first rom h hk, Slot.sym, ← hfirst, ← getElem?_blockSyms r _ hk]
    exact getElem?_append_middle (first := [Sym.hdr])
      (last := footerSyms rom ++ [Sym.gap] ++ blockSyms r (8 * h + 4) ++ [Sym.gap2]) (by simp [halfSyms]) (by simp)
      (by simpa using hk)
  · rw [slotInHalf_footer rom h hk, Slot.sym, ← getElem?_footerSyms rom hk]
    exact getElem?_append_middle (first := [Sym.hdr] ++ blockSyms r (8 * h))
      (last := [Sym.gap] ++ blockSyms r (8 * h + 4) ++ [Sym.gap2]) (by simp [halfSyms]) (by simp) (by simpa using hk)
  · exact getElem?_append_middle (l := halfSyms rom r h) (n := 36) (k := 0)
      (first := [Sym.hdr] ++ blockSyms r (8 * h) ++ footerSyms rom) (middle := [Sym.gap])
      (last := blockSyms r (8 * h + 4) ++ [Sym.gap2]) (by simp [halfSyms]) (by simp) (by simp)
  · rw [slotInHalf_second rom h hk, Slot.sym, ← hsecond, ← getElem?_blockSyms r _ hk]
    exact getElem?_append_middle (first := [Sym.hdr] ++ blockSyms r (8 * h) ++ footerSyms rom ++ [Sym.gap]) (last := [Sym.gap2])
      (by simp [halfSyms]) (by simp) (by simpa using hk)
  · exact getElem?_append_middle (l := halfSyms rom r h) (n := 69) (k := 0)
      (first := [Sym.hdr] ++ blockSyms r (8 * h) ++ footerSyms rom ++ [Sym.gap] ++ blockSyms r (8 * h + 4))
      (middle := [Sym.gap2]) (last := []) (by simp [halfSyms]) (by simp) (by simp)

/-- At index `i` of half `h` of a frame stands the symbol that the position map names there (R84, R85). -/
theorem getElem?_frameSyms_half (rom : TimingRom) (r : RecordBits) {h i : Nat} (hh : h < 2) (hi : i < 70) :
    (frameSyms rom r)[70 * h + i]? = some ((slotInHalf rom h i).sym r) := by
  rw [← getElem?_halfSyms rom r h hi]
  obtain rfl | rfl : h = 0 ∨ h = 1 := by omega
  · exact getElem?_append_middle (first := []) rfl rfl (by simpa using hi)
  · exact getElem?_append_middle (first := halfSyms rom r 0) (last := []) (by simp [frameSyms]) (by simp) (by simpa using hi)

/-- At every index of a frame stands the symbol that the position map names (R84, R85). -/
theorem getElem?_frameSyms (rom : TimingRom) (r : RecordBits) {i : Nat} (hi : i < 140) :
    (frameSyms rom r)[i]? = some ((slotAt rom i).sym r) := by
  have hhalf := getElem?_frameSyms_half rom r (h := i / 70) (i := i % 70) (by omega) (by omega)
  rwa [Nat.div_add_mod] at hhalf

/-- Data bit `j` stands at its own index (R85): in half `j / 64`, in the first block of that half or in its second. -/
theorem slotAt_dataIndex (rom : TimingRom) {j : Nat} (hj : j < 128) : slotAt rom (dataIndex j) = .data j := by
  obtain ⟨h, k, hh, hk, rfl | rfl⟩ : ∃ h k, h < 2 ∧ k < 32 ∧ (j = 64 * h + k ∨ j = 64 * h + 32 + k) :=
    ⟨j / 64, j % 32, by omega, by omega, by omega⟩
  · have hindex : dataIndex (64 * h + k) = 70 * h + (1 + k) := by unfold dataIndex; split_ifs <;> omega
    rw [hindex, slotAt_half rom h (by omega), slotInHalf_first rom h hk]
  · have hindex : dataIndex (64 * h + 32 + k) = 70 * h + (37 + k) := by unfold dataIndex; split_ifs <;> omega
    rw [hindex, slotAt_half rom h (by omega), slotInHalf_second rom h hk]

end Sys2Proof.Machine
end

section
/-! The statements about the frame's position map (R85). -/

namespace Sys2Proof.Machine

/-- Settles O8: the position map names the symbols of the frame. -/
theorem frameFollowsSlots : Obligations.FrameFollowsSlots := by
  intro rom r i hi
  rw [frame, List.getElem?_map, getElem?_frameSyms rom r hi, Option.map_some]

/-- Settles O7: the symbols of each half by the position map, the data bits by their indices. -/
theorem framePositionMap : Obligations.FramePositionMap := by
  intro rom r hpattern
  refine ⟨length_frameSyms rom r, fun h hh => ?_, fun j hj => ?_⟩
  · have hat : ∀ i, i < 70 → (frameSyms rom r)[70 * h + i]? = some ((slotInHalf rom h i).sym r) :=
      fun i hi => getElem?_frameSyms_half rom r hh hi
    have hfooter : ∀ k, k < 3 → (frameSyms rom r)[70 * h + (33 + k)]? = some (bitSym ((0b010#3).getLsbD k)) := by
      intro k hk
      rw [hat _ (by omega), slotInHalf_footer rom h hk, hpattern]
      rfl
    refine ⟨hat 0 (by omega), fun i hlow hhigh => ?_, hfooter 0 (by omega), hfooter 1 (by omega), hfooter 2 (by omega),
      hat 36 (by omega), fun i hlow hhigh => ?_, hat 69 (by omega)⟩
    · obtain ⟨k, rfl⟩ : ∃ k, i = 70 * h + (1 + k) := ⟨i - 70 * h - 1, by omega⟩
      rw [hat _ (by omega), slotInHalf_first rom h (by omega), Slot.sym]
      congr 4; omega
    · obtain ⟨k, rfl⟩ : ∃ k, i = 70 * h + (37 + k) := ⟨i - 70 * h - 37, by omega⟩
      rw [hat _ (by omega), slotInHalf_second rom h (by omega), Slot.sym]
      congr 4; omega
  · have hindex : 1 + j + 4 * (if 32 ≤ j then 1 else 0) + 2 * (if 64 ≤ j then 1 else 0) + 4 * (if 96 ≤ j then 1 else 0) =
        dataIndex j := by
      simp only [dataIndex, mul_ite, mul_one, mul_zero]
    rw [hindex, getElem?_frameSyms rom r (dataIndex_lt hj), slotAt_dataIndex rom hj, Slot.sym]

end Sys2Proof.Machine
end

section
/-! BYTES of the encoder and its bits (R94, R103, R104), the symbols on the wire, and the operands that no operation takes. -/

namespace Sys2Proof.Machine

/-- On a bit that exists, E.BIT emits that bit's symbol (R104). -/
theorem exec_eBit {a b : Nat} (hbit : recordBitExists a b = true) (s : State) : exec (.eBit a b) s = .next (s.emitBit a b) :=
  if_pos hbit

/-- The sub-steps of a block address work on bits that exist (R54, R94). -/
theorem recordBitExists_block {lo : BitVec 5} (hlo : blockLegal lo = true) {k : Nat} (hk : k < 32) :
    recordBitExists (blockByte lo k) (blockBit k) = true := by
  have hbit : blockBit k < 8 := Nat.mod_lt k (by decide)
  simp [recordBitExists, blockByte_lt hlo hk, hbit]

/-- E.BIT on the first `n` bits of a block, one after the other while none stops, emits their `n` symbols and changes nothing else
(R94, R104). -/
theorem foldl_exec_eBit {lo : BitVec 5} (hlo : blockLegal lo = true)
    {runBit : Host.Outcome State Fault Refusal → Nat → Host.Outcome State Fault Refusal}
    (hrunBit : ∀ x k, runBit (.next x) k = exec (.eBit (blockByte lo k) (blockBit k)) x) (s : State) {n : Nat} (hn : n ≤ 32) :
    (List.range n).foldl runBit (.next s) =
      .next { s with sinkTrain := s.sinkTrain ++ (List.range n).map fun k => symPair s.rom (encBlockSym s.encRec lo k) } := by
  induction n with
  | zero => simp
  | succ n ih =>
    rw [List.range_succ, List.foldl_append, ih (by omega), List.foldl_cons, List.foldl_nil, hrunBit,
      exec_eBit (recordBitExists_block hlo (by omega))]
    simp [State.emitBit, State.emit, encBlockSym]

/-- On a block address, BYTES runs its 32 sub-steps and advances the schedule index (R103). -/
theorem exec_encBytes {lo : BitVec 5} (hlo : blockLegal lo = true) (s : State) :
    exec (.encBytes lo) s = .next (encBlock lo s).encAdvance :=
  if_pos hlo

/-- Settles O16: both append the block's 32 symbols in order. -/
theorem encoderBytesIsItsBits : Obligations.EncoderBytesIsItsBits := by
  intro lo s hlo
  have hlegal := blockLegal_iff.mpr hlo
  refine ⟨_, _, exec_encBytes hlegal s, foldl_exec_eBit hlegal (fun _ _ => rfl) s (le_refl 32), ?_⟩
  rw [encBlock_eq, State.encAdvance]

/-- A symbol's instruction emits the symbol's Pair (R16, R72). -/
theorem exec_symInstr (y : Sym) (s : State) : exec (symInstr y) s = .next (s.emitSym y) := by
  rw [exec_eq_execUnder, execUnder_symInstr]

/-- Settles O35, for every symbol at once; the Pairs are the hardwired ROM's. -/
theorem symbolsGoOnTheWire : Obligations.SymbolsGoOnTheWire := by
  intro s hrom
  have hemit : ∀ y, exec (symInstr y) s = .next { s with sinkTrain := s.sinkTrain ++ [symPair .spec y] } := by
    intro y
    rw [exec_symInstr, ← hrom]
    rfl
  exact ⟨hemit .zero, hemit .one, hemit .hdr, hemit .gap, hemit .gap2⟩

/-- Settles O36: each operation first checks its operand. -/
theorem illegalOperandsStop : Obligations.IllegalOperandsStop := by
  refine ⟨fun lo s h0 h4 h8 h12 => ?_, fun a b s hab => ?_⟩
  · have hlegal : ¬blockLegal lo = true := by
      rw [blockLegal_iff]
      simp only [h0, h4, h8, h12, or_self, not_false_eq_true]
    exact ⟨if_neg hlegal, if_neg hlegal⟩
  · have hbit : ¬recordBitExists a b = true := by
      simp only [recordBitExists, Bool.and_eq_true, decide_eq_true_eq]
      omega
    exact ⟨if_neg hbit, if_neg hbit⟩

end Sys2Proof.Machine
end

section
/-! What a step does at MATCH, mover by mover (R39, R60, R90). -/

namespace Sys2Proof.Machine

/-- A step takes the pending command's word (R40, R90). -/
theorem step_host {s : State} (hreset : s.resetReq = false) (hcmd : s.cmd ≠ 0) :
    step s = runWord exec (.cmd s.cmd) (State.takeReplies { s with cmd := 0 }) :=
  cycle_host exec hreset hcmd

/-- With no ENCODE running a step appends the Pair at the sink connection, whatever Pair it is (R71, R157). -/
theorem step_wire {s : State} (hreset : s.resetReq = false) (hcmd : s.cmd = 0) (henc : s.encBusy = false) {p : Pair}
    (hwire : s.wire = some p) : step s = .next (State.emit (State.takeReplies { s with wire := none }) p) := by
  rw [step_eq_stepUnder, stepUnder, cycle_wire _ hreset hcmd henc hwire, appendPair_eq]

/-- The unit that moves runs the instruction of the word at its schedule index (R39, R86, R87). -/
theorem step_unit {s : State} {u : UnitId} {w : BitVec 8} {i : Instr} (hmover : s.nextMover = .unit u)
    (hword : (unitRom u)[(s.upc u).toNat]? = some w) (hdecode : decode (.uop u w) = .ok i) : step s = exec i s.afterPick := by
  have hpicked : s.afterPick.unitWord u = some (.uop u w) := by
    obtain ⟨l, hl⟩ := s.afterPick_eq
    rw [hl]
    cases u <;> exact congrArg (Option.map _) hword
  rw [step, cycle_unit exec hmover, unitCycle, hpicked]
  exact runWord_ok hdecode _

/-- Nothing waits at the sink connection that could be served while an ENCODE runs (R178). -/
theorem inputFree_of_encBusy {s : State} (hreset : s.resetReq = false) (hcmd : s.cmd = 0) (henc : s.encBusy = true) :
    s.inputFree :=
  ⟨hreset, hcmd, by simp [henc]⟩

/-- Where not both units are busy the schedule input is not read (R60). -/
theorem afterPick_of_one {s : State} (hone : (s.encBusy && s.decBusy) = false) : s.afterPick = s.takeReplies :=
  if_neg (by simp [hone])

/-- Where both units are busy the head of the schedule input is consumed (R60). -/
theorem afterPick_of_both {s : State} (henc : s.encBusy = true) (hdec : s.decBusy = true) :
    s.afterPick = State.takeReplies { s with sched := s.sched.tail } :=
  if_pos (by simp [henc, hdec])

/-- Where both units are busy the head of the schedule input moves, and ENC where it is empty (R60). -/
theorem nextMover_of_both {s : State} (hreset : s.resetReq = false) (hcmd : s.cmd = 0) (henc : s.encBusy = true)
    (hdec : s.decBusy = true) : s.nextMover = .unit (s.sched.headD .enc) := by
  rw [nextMover_unit (inputFree_of_encBusy hreset hcmd henc) (.inl henc), if_pos henc, if_pos hdec]

/-- Settles O4: the codes from the decoder's table, then a step with nothing to do and a step with the reserved command. -/
theorem commandCodes : Obligations.CommandCodes := by
  refine ⟨rfl, rfl, rfl, rfl, fun s hquiet henc hdec => cycle_idle exec hquiet.inputFree henc hdec, fun s hreset hcmd => ?_⟩
  rw [step_host hreset (by simp [hcmd]), hcmd]
  rfl

/-- Settles O38, mover by mover: the command, the sink connection, then the unit that moves. -/
theorem stepRunsFetchedInstruction : Obligations.StepRunsFetchedInstruction := by
  intro s i hreset
  refine ⟨fun hcmd hdecode => ?_, fun y hcmd henc hwire => ?_, fun p hcmd henc hwire => step_wire hreset hcmd henc hwire,
    fun w hcmd henc hdec hword hdecode => ?_, fun w hcmd hwire henc hdec hword hdecode => ?_,
    fun w hcmd henc hdec hsched hword hdecode => ?_, fun w rest hcmd henc hdec hsched hword hdecode => ?_,
    fun w rest hcmd henc hdec hsched hword hdecode => ?_⟩
  · rw [step_host hreset hcmd, runWord_ok hdecode]
    rfl
  · rw [step_wire hreset hcmd henc hwire, exec_symInstr]
    rfl
  · have hmover := nextMover_unit (inputFree_of_encBusy hreset hcmd henc) (.inl henc)
    rw [if_pos henc, if_neg (by simp [hdec])] at hmover
    rw [step_unit hmover hword hdecode, afterPick_of_one (by simp [hdec])]
    rfl
  · have hmover := nextMover_unit ⟨hreset, hcmd, by simp [hwire]⟩ (.inr hdec)
    rw [if_neg (by simp [henc])] at hmover
    rw [step_unit hmover hword hdecode, afterPick_of_one (by simp [henc])]
    rfl
  all_goals
    have hmover := nextMover_of_both hreset hcmd henc hdec
    rw [hsched] at hmover
    rw [step_unit hmover hword hdecode, afterPick_of_both henc hdec, hsched]
    rfl

end Sys2Proof.Machine
end

section
/-! The total duration of a frame (R113): each Pair's own duration added up part by part; a data bit that is 1 adds the difference
between ONE and ZERO. -/

namespace Sys2Proof.Machine

/-- The duration of a symbol: the mark and the space of its canonical Pair (R72). -/
def symDuration (rom : TimingRom) (y : Sym) : Nat := (symPair rom y).mark + (symPair rom y).space

theorem duration_map_symPair (rom : TimingRom) (ys : List Sym) :
    duration (ys.map (symPair rom)) = (ys.map (symDuration rom)).sum := by
  rw [duration, List.map_map]
  rfl

/-- The number of 1 bits in the 4-byte block that starts at byte address `lo`. -/
def blockOnes (r : RecordBits) (lo : Nat) : Nat := (List.range 32).countP fun k => recBit r (8 * lo + k)

/-- The bits of a record are those of its four blocks (R52). -/
theorem ones_eq_blockOnes (r : RecordBits) :
    ones r = blockOnes r 0 + blockOnes r 4 + blockOnes r 8 + blockOnes r 12 := by
  have hblocks : List.range 128 =
      List.range 32 ++ (List.range 32).map (32 + ·) ++ (List.range 32).map (64 + ·) ++ (List.range 32).map (96 + ·) := rfl
  rw [ones, ← List.countP_eq_length_filter, hblocks]
  simp only [List.countP_append, List.countP_map, blockOnes, recBit_eq, Function.comp_def, Nat.reduceMul, Nat.zero_add]

/-- A list of data bits lasts as long as that many ZEROs, and `d` longer for each 1 among them, where ONE is `d` longer than ZERO. -/
theorem sum_symDuration_bits {rom : TimingRom} {d : Nat} (hone : symDuration rom .one = symDuration rom .zero + d)
    (bit : Nat → Bool) (ks : List Nat) :
    (ks.map fun k => symDuration rom (bitSym (bit k))).sum = ks.length * symDuration rom .zero + d * ks.countP bit := by
  induction ks with
  | nil => simp
  | cons k ks ih =>
    rw [List.map_cons, List.sum_cons, ih, List.length_cons, List.countP_cons]
    cases bit k with
    | false => simp only [bitSym, Bool.false_eq_true, if_false]; ring
    | true => simp only [bitSym, if_true, hone]; ring

/-- The duration of a block (R81). -/
theorem sum_symDuration_blockSyms {rom : TimingRom} {d : Nat} (hone : symDuration rom .one = symDuration rom .zero + d)
    (r : RecordBits) (lo : Nat) :
    ((blockSyms r lo).map (symDuration rom)).sum = 32 * symDuration rom .zero + d * blockOnes r lo := by
  rw [blockSyms_eq, List.map_map, Function.comp_def, sum_symDuration_bits hone, List.length_range, blockOnes]

/-- The duration of a half (R83). -/
theorem sum_symDuration_halfSyms {rom : TimingRom} {d : Nat} (hone : symDuration rom .one = symDuration rom .zero + d)
    (r : RecordBits) (h : Nat) :
    ((halfSyms rom r h).map (symDuration rom)).sum =
      symDuration rom .hdr + ((footerSyms rom).map (symDuration rom)).sum + symDuration rom .gap + symDuration rom .gap2 +
        64 * symDuration rom .zero + d * (blockOnes r (8 * h) + blockOnes r (8 * h + 4)) := by
  simp only [halfSyms, List.map_append, List.sum_append, sum_symDuration_blockSyms hone, List.map_cons, List.map_nil,
    List.sum_singleton]
  ring

/-- The duration of a frame (R84, R113). -/
theorem duration_frame {rom : TimingRom} {d : Nat} (hone : symDuration rom .one = symDuration rom .zero + d)
    (r : RecordBits) :
    duration (frame rom r) =
      2 * (symDuration rom .hdr + ((footerSyms rom).map (symDuration rom)).sum + symDuration rom .gap +
        symDuration rom .gap2 + 64 * symDuration rom .zero) + d * ones r := by
  rw [frame, duration_map_symPair, frameSyms, List.map_append, List.sum_append, sum_symDuration_halfSyms hone,
    sum_symDuration_halfSyms hone, ones_eq_blockOnes]
  ring

/-- The durations of the symbols under the hardwired ROM but for its gap mark, `g` ticks (R9, R74 to R78): the gap mark is part of GAP
and GAP2 and of no other symbol. -/
theorem symDuration_gapMarkT (g : Nat) (y : Sym) :
    symDuration { TimingRom.spec with gapMarkT := g } y =
      match y with
      | .zero => 1190
      | .one => 2210
      | .hdr => 13515
      | .gap => g * 85 + 19975
      | .gap2 => g * 85 + 39950 := by
  have hgap : symPair { TimingRom.spec with gapMarkT := g } .gap = ⟨g * 85, TimingRom.spec.gapSpace⟩ := rfl
  have hgap2 : symPair { TimingRom.spec with gapMarkT := g } .gap2 = ⟨g * 85, TimingRom.spec.gap2Space⟩ := rfl
  cases y with
  | gap => rw [symDuration, hgap, show TimingRom.spec.gapSpace = 19975 from rfl]
  | gap2 => rw [symDuration, hgap2, show TimingRom.spec.gap2Space = 39950 from rfl]
  | zero => exact show symDuration .spec .zero = 1190 from rfl
  | one => exact show symDuration .spec .one = 2210 from rfl
  | hdr => exact show symDuration .spec .hdr = 13515 from rfl

/-- The duration of a frame under the hardwired ROM but for its gap mark, `g` ticks (R9, R113). -/
theorem duration_frame_gapMarkT (g : Nat) (r : RecordBits) :
    duration (frame { TimingRom.spec with gapMarkT := g } r) = 308380 + 4 * (g * 85) + 1020 * ones r := by
  have hone : symDuration { TimingRom.spec with gapMarkT := g } .one =
      symDuration { TimingRom.spec with gapMarkT := g } .zero + 1020 := by
    simp only [symDuration_gapMarkT]
  have hfooter : footerSyms { TimingRom.spec with gapMarkT := g } = [.zero, .one, .zero] :=
    show footerSyms .spec = _ from rfl
  rw [duration_frame hone, hfooter]
  simp only [List.map_cons, List.map_nil, List.sum_cons, List.sum_nil, symDuration_gapMarkT]
  ring

/-- Settles O9: the hardwired gap mark is 8 ticks. -/
theorem frameDuration : Obligations.FrameDuration := by
  intro r
  have hspec : { TimingRom.spec with gapMarkT := 8 } = TimingRom.spec := rfl
  refine ⟨?_, fun g => duration_frame_gapMarkT g r⟩
  rw [← hspec, duration_frame_gapMarkT]

end Sys2Proof.Machine
end

section
/-! The ENCODE command and the encoder's micro-operations one by one (R100 to R108), their Pairs those of the hardwired ROM. -/

namespace Sys2Proof.Machine

/-- On the idle unit ENCODE starts a transaction (R100, R176). -/
theorem exec_encode {s : State} (hidle : s.encBusy = false) : exec .encode s = .next s.startEncode :=
  if_neg (by simp [hidle])

/-- The Pair of a data bit under the hardwired ROM (R75, R76, R79). -/
theorem symPair_spec_bitSym (v : Bool) : symPair .spec (bitSym v) = if v then ⟨680, 1530⟩ else ⟨680, 510⟩ := by
  cases v <;> rfl

/-- Settles O12: the record is latched byte by byte. -/
theorem encodeStarts : Obligations.EncodeStarts := by
  intro s hidle
  refine ⟨_, exec_encode hidle, ?_, ?_, fun a ha => ?_⟩
  · rw [State.startEncode_encRec, State.startEncode]
  · rw [State.startEncode_encRec, Memory.wf_latch]
  · rw [State.startEncode_encRec, Memory.read_latch _ ha, recByte]

/-- Settles O13: the carrier is the ROM's. -/
theorem encoderCarrierRuns : Obligations.EncoderCarrierRuns := by
  refine ⟨standsAt_of_lt rfl (by decide) (by decide), fun s hrom => ?_⟩
  have hcarrier : s.rom.carrierHz = 38000 := by rw [hrom]; rfl
  rw [← hcarrier]
  rfl

/-- Settles O14: HDR, GAP and GAP2 emit one symbol each, FOOTER the three of the footer pattern. -/
theorem encoderFramingRuns : Obligations.EncoderFramingRuns := by
  refine ⟨standsAt_of_lt rfl (by decide) (by decide), standsAt_of_lt rfl (by decide) (by decide),
    standsAt_of_lt rfl (by decide) (by decide), standsAt_of_lt rfl (by decide) (by decide), fun s hrom => ?_⟩
  have hemit : ∀ ys : List Sym, (ys.foldl State.emitSym s).encAdvance =
      { s with sinkTrain := s.sinkTrain ++ ys.map (symPair .spec), encUpc := s.encUpc + 1 } := by
    intro ys
    rw [foldl_emitSym, hrom]
    rfl
  have hfooter : exec .encFooter s = .next ((footerSyms .spec).foldl State.emitSym s).encAdvance := by
    rw [← hrom]
    rfl
  exact ⟨congrArg _ (hemit [.hdr]), hfooter.trans (congrArg _ (hemit _)), congrArg _ (hemit [.gap]),
    congrArg _ (hemit [.gap2])⟩

/-- Settles O15: BYTES appends the symbols of its 32 sub-steps. -/
theorem encoderBytesRuns : Obligations.EncoderBytesRuns := by
  refine ⟨standsAt_of_lt rfl (by decide) (by decide), standsAt_of_lt rfl (by decide) (by decide),
    standsAt_of_lt rfl (by decide) (by decide), standsAt_of_lt rfl (by decide) (by decide), fun lo s hlo hrom => ?_⟩
  rw [exec_encBytes (blockLegal_iff.mpr hlo), encBlock_eq, hrom]
  simp only [encBlockSym, symPair_spec_bitSym]
  rfl

/-- Settles O17: a bit that exists emits its symbol. -/
theorem encoderBitRuns : Obligations.EncoderBitRuns := by
  refine ⟨fun _ _ => rfl, fun a b s ha hb hrom => ?_⟩
  have hbit : recordBitExists a b = true := by simp [recordBitExists, ha, hb]
  rw [exec_eBit hbit, State.emitBit, State.emitSym, hrom, symPair_spec_bitSym, State.emit, hrom]

/-- Settles O18: END is the end of the transaction. -/
theorem encoderEndRuns : Obligations.EncoderEndRuns :=
  ⟨standsAt_of_lt rfl (by decide) (by decide), fun _ => rfl⟩

end Sys2Proof.Machine
end

section
/-! A whole ENCODE in closed form (R100, R110): the state at each slot of its schedule, by ENC's moves and by the machine's steps. -/

namespace Sys2Proof.Machine

/-- A run of `n` moves followed by one more. -/
theorem runMoves_snoc {move : State → Host.Outcome State Fault Refusal} {n : Nat} {s t u : State}
    (hrun : runMoves move n s = .next t) (hmove : move t = .next u) : runMoves move (n + 1) s = .next u := by
  induction n generalizing s with
  | zero =>
    cases hrun
    exact runMoves_succ hmove 0
  | succ n ih =>
    cases hfirst : move s with
    | next s' =>
      rw [runMoves_succ hfirst] at hrun ⊢
      exact ih hrun
    | fault f => simp [runMoves, hfirst] at hrun
    | refused r => simp [runMoves, hfirst] at hrun

/-- The ENCODE that started in `s`, when it stands at slot `n` of its schedule: the record latched, the Pairs of the slots before
emitted, the carrier set by CARRIER at slot 0, ENC.k left at 31 by BYTES at slot 2 (R86, R100 to R107). -/
def State.encodeAt (s : State) (n : Nat) : State :=
  { s with
    encBusy := true
    encRec := Memory.latch s.recIn
    sinkCarrier := if n = 0 then s.sinkCarrier else some s.rom.carrierHz
    sinkTrain := (frame s.rom s.recIn).take (encPairsBefore n)
    encUpc := BitVec.ofNat 4 n
    encK := if n ≤ 2 then s.encK else 31 }

theorem State.encodeAt_zero (s : State) : s.encodeAt 0 = s.startEncode := by
  rw [State.encodeAt, State.startEncode]
  rfl

/-- No reply stands on a port during an ENCODE that started with none (R36). -/
theorem State.takeReplies_encodeAt (s : State) (n : Nat) : (s.encodeAt n).takeReplies = s.takeReplies.encodeAt n := by
  simp only [State.encodeAt, State.takeReplies]

/-- The schedule index at slot `n` (R39). -/
theorem State.toNat_encodeAt_encUpc (s : State) {n : Nat} (hn : n ≤ 13) : (s.encodeAt n).encUpc.toNat = n := by
  rw [State.encodeAt, BitVec.toNat_ofNat]
  omega

/-- At slots 0 to 12 a move of ENC goes on to the next slot (R101 to R107). -/
theorem unitStep_enc_encodeAt (m : Matcher) (s : State) {n : Nat} (hn : n < 13) :
    unitStep m .enc (s.encodeAt n) = .next (s.encodeAt (n + 1)) := by
  have hupc := s.toNat_encodeAt_encUpc hn.le
  have hnext : BitVec.ofNat 4 n + 1 = BitVec.ofNat 4 (n + 1) := (BitVec.ofNat_add n 1).symm
  have hk : (if n ∈ [2, 5, 8, 11] then 31 else if n ≤ 2 then s.encK else 31) = if n + 1 ≤ 2 then s.encK else 31 := by
    obtain hlow | rfl | hhigh := Nat.lt_trichotomy n 2
    · have hno : n ∉ [2, 5, 8, 11] := by simp; omega
      rw [if_neg hno, if_pos hlow.le, if_pos (by omega)]
    · rfl
    · rw [if_neg (show ¬n ≤ 2 by omega), if_neg (show ¬n + 1 ≤ 2 by omega), ite_self]
  have hcarrier : (if n = 0 then some s.rom.carrierHz else if n = 0 then s.sinkCarrier else some s.rom.carrierHz) =
      if n + 1 = 0 then s.sinkCarrier else some s.rom.carrierHz := by
    rw [if_neg (Nat.succ_ne_zero n)]
    split_ifs <;> rfl
  rw [unitStep_enc_eq m _ (by omega), hupc]
  simp only [State.encodeAt, Memory.pack_latch, hnext, hk, hcarrier, take_encPairsBefore s.rom s.recIn hn]

/-- At slot 13 every Pair of the frame is in the sink, and the move of ENC there ends the transaction (R84, R108). -/
theorem State.endEncode_encodeAt (s : State) :
    (s.encodeAt 13).endEncode =
      { s with
        sinkCarrier := some s.rom.carrierHz
        sinkTrain := frame s.rom s.recIn
        encBusy := false
        encRec := Memory.latch s.recIn
        encUpc := 13
        encK := 31
        encReply := true } := by
  have hall : (frame s.rom s.recIn).take (encPairsBefore 13) = frame s.rom s.recIn :=
    List.take_of_length_le (length_frame s.rom s.recIn).le
  simp [State.encodeAt, State.endEncode, hall]

/-- The 14 moves of an ENCODE, made by ENC alone or by whatever moves as ENC does while it runs (R100, R110). -/
theorem runMoves_startEncode {m : Matcher} {move : State → Host.Outcome State Fault Refusal} {s : State}
    (hmove : ∀ n, move (s.encodeAt n) = unitStep m .enc (s.encodeAt n)) :
    runMoves move 14 s.startEncode = .next (s.encodeAt 13).endEncode := by
  have hslot : ∀ n, n ≤ 13 → runMoves move n s.startEncode = .next (s.encodeAt n) := by
    intro n hn
    induction n with
    | zero => rw [runMoves, s.encodeAt_zero]
    | succ n ih => exact runMoves_snoc (ih (by omega)) ((hmove n).trans (unitStep_enc_encodeAt m s (by omega)))
  exact runMoves_snoc (hslot 13 (le_refl 13)) ((hmove 13).trans (unitStep_enc_end m (s.toNat_encodeAt_encUpc (le_refl 13))))

/-- Settles O19: from its start the encode runs through its 14 slots. -/
theorem encodeProducesFrame : Obligations.EncodeProducesFrame := by
  intro m s hidle
  refine ⟨_, _, exec_encode hidle, runMoves_startEncode fun _ => rfl, ?_, ?_⟩
  · rw [s.endEncode_encodeAt, hidle]
  · rw [s.endEncode_encodeAt, Memory.pack_latch]

/-- With ENC alone busy and no command pending, a step withdraws the replies and is a move of ENC (R36, R60). -/
theorem step_enc_alone {s : State} (hreset : s.resetReq = false) (hcmd : s.cmd = 0) (henc : s.encBusy = true)
    (hdec : s.decBusy = false) : step s = unitStep Config.matchFn .enc s.takeReplies := by
  have hmover := nextMover_unit (inputFree_of_encBusy hreset hcmd henc) (.inl henc)
  rw [if_pos henc, if_neg (by simp [hdec])] at hmover
  rw [step_eq_stepUnder, stepUnder, cycle_unit _ hmover, afterPick_of_one (by simp [hdec]), unitStep]

/-- A pending ENCODE starts on its idle unit (R90, R100). -/
theorem step_encode {s : State} (hreset : s.resetReq = false) (hcmd : s.cmd = 0b01) (hidle : s.encBusy = false) :
    step s = .next (State.startEncode (State.takeReplies { s with cmd := 0 })) := by
  rw [step_host hreset (by simp [hcmd]), hcmd, runWord_ok (show decode (.cmd 0b01) = .ok .encode from rfl)]
  exact exec_encode hidle

/-- While an ENCODE that started with no reply on a port runs alone, the machine's steps are ENC's moves (R36, R60). -/
theorem step_encodeAt {s : State} (hreset : s.resetReq = false) (hcmd : s.cmd = 0) (hdec : s.decBusy = false)
    (hreplies : s.takeReplies = s) (n : Nat) : step (s.encodeAt n) = unitStep Config.matchFn .enc (s.encodeAt n) := by
  rw [step_enc_alone (s := s.encodeAt n) hreset hcmd rfl hdec, State.takeReplies_encodeAt, hreplies]

/-- Settles O20: the command's step, then 14 steps that are moves of ENC; from the first on no reply stands on a port. -/
theorem encodeCommandReachesReply : Obligations.EncodeCommandReachesReply := by
  rintro s r ⟨hreset, hcmd, hwire, henc, hdec, rfl⟩
  have hmove := step_encodeAt (s := State.takeReplies { s with cmd := 0 }) hreset rfl hdec rfl
  refine ⟨_, (runMoves_succ (step_encode hreset hcmd henc) 14).trans (runMoves_startEncode hmove), ?_⟩
  rw [State.endEncode_encodeAt]
  simp [SameDecSide, hwire, hreset]

end Sys2Proof.Machine
end

section
/-! The DECODE command and the decoder's micro-operations one by one (R120 to R130), their Pairs those of the hardwired ROM. -/

namespace Sys2Proof.Machine

/-- Settles O39: the arms of the dispatch one by one, and the step over them. -/
theorem stepIsStepUnderMatch : Obligations.StepIsStepUnderMatch :=
  ⟨exec_eq_execUnder, step_eq_stepUnder⟩

/-- On the idle unit DECODE starts a transaction (R120, R176). -/
theorem exec_decode {s : State} (hidle : s.decBusy = false) : exec .decode s = .next s.startDecode :=
  if_neg (by simp [hidle])

/-- Settles O21: DECODE on the idle unit. -/
theorem decodeStarts : Obligations.DecodeStarts :=
  fun _ hidle => exec_decode hidle

/-- EXPECT decides by `sees` alone (R121). -/
theorem State.expect_eq (s : State) (m : Matcher) (p : Pair) :
    s.expect m p = if s.sees m p then (true, s.advanceCur) else (false, s) :=
  rfl

/-- Settles O22: EXPECT sees the Pair at the cursor, and none on an exhausted train. -/
theorem expectConsumesOnMatch : Obligations.ExpectConsumesOnMatch := by
  intro m p s
  refine ⟨fun q hq hmatch => ?_, fun q hq hmatch => ?_, fun hend => ?_⟩
  · exact if_pos ((State.sees_some hq m p).trans hmatch)
  · exact if_neg (by simp [State.sees_some hq, hmatch])
  · exact if_neg (by simp [State.sees_none (List.getElem?_eq_none hend)])

/-- A framing micro-operation is one expectation: on a match the cursor and the schedule index advance, otherwise the decode ends with
the reply none (R121, R133). -/
theorem finishUop_expect (s : State) (m : Matcher) (p : Pair) :
    finishUop (s.expect m p) =
      if s.sees m p then { s with srcCur := s.srcCur + 1, decUpc := s.decUpc + 1 }
      else { s with decBusy := false, decReply := some none } := by
  rw [State.expect_eq]
  split <;> rfl

/-- Settles O23: each of the three is one expectation of its symbol. -/
theorem decoderFramingRuns : Obligations.DecoderFramingRuns := by
  refine ⟨standsAt_of_lt rfl (by decide) (by decide), standsAt_of_lt rfl (by decide) (by decide),
    standsAt_of_lt rfl (by decide) (by decide), fun s hrom => ?_⟩
  have hrun : ∀ y, Host.Outcome.next (φ := Fault) (ρ := Refusal) (finishUop (s.expect Config.matchFn (symPair s.rom y))) =
      .next (if s.sees Config.matchFn (symPair .spec y) then { s with srcCur := s.srcCur + 1, decUpc := s.decUpc + 1 }
        else { s with decBusy := false, decReply := some none }) := by
    intro y
    rw [finishUop_expect, hrom]
  exact ⟨hrun .hdr, hrun .gap, hrun .gap2⟩

/-- A chain of expectations goes on from the next Pair where the first matches (R17, R127). -/
theorem State.expectAll_cons (s : State) (m : Matcher) (p : Pair) (ps : List Pair) :
    s.expectAll m (p :: ps) = if s.sees m p then s.advanceCur.expectAll m ps else (false, s) := by
  rw [State.expectAll, State.expect_eq]
  cases s.sees m p <;> rfl

/-- Settles O24: the three expectations in turn, each at the cursor that the matches before it leave. -/
theorem decoderFooterRuns : Obligations.DecoderFooterRuns := by
  refine ⟨standsAt_of_lt rfl (by decide) (by decide), fun s hrom => ?_⟩
  have hfooter : exec .decFooter s =
      .next (finishUop (s.expectAll Config.matchFn [⟨680, 510⟩, ⟨680, 1530⟩, ⟨680, 510⟩])) := by
    have hsyms : (footerSyms s.rom).map (symPair s.rom) = [⟨680, 510⟩, ⟨680, 1530⟩, ⟨680, 510⟩] := by rw [hrom]; rfl
    rw [← hsyms]
    rfl
  have hnext : ∀ p, s.advanceCur.sees Config.matchFn p = s.seesAt Config.matchFn 1 p := fun _ => rfl
  have hlast : ∀ p, s.advanceCur.advanceCur.sees Config.matchFn p = s.seesAt Config.matchFn 2 p := fun _ => rfl
  rw [hfooter]
  simp only [State.expectAll_cons, hnext, hlast]
  change _ = Host.Outcome.next
    (if s.sees Config.matchFn ⟨680, 510⟩ then
      if s.seesAt Config.matchFn 1 ⟨680, 1530⟩ then
        if s.seesAt Config.matchFn 2 ⟨680, 510⟩ then _ else _
      else _
    else _)
  split_ifs <;> rfl

/-- On a bit that exists, D.BIT takes one bit, and ends the decode where the Pair at the cursor is none (R124). -/
theorem exec_dBit {a b : Nat} (hbit : recordBitExists a b = true) (s : State) :
    exec (.dBit a b) s = .next (finishBit (s.takeBit Config.matchFn a b)) :=
  if_pos hbit

/-- One bit, and the end of the decode where the Pair at the cursor matches neither ONE nor ZERO (R124, R133). -/
theorem finishBit_takeBit (s : State) (m : Matcher) (a b : Nat) :
    finishBit (s.takeBit m a b) =
      if s.sees m (symPair s.rom .one) then { s with srcCur := s.srcCur + 1, decAcc := s.decAcc.writeBit a b true }
      else if s.sees m (symPair s.rom .zero) then
        { s with srcCur := s.srcCur + 1, decAcc := s.decAcc.writeBit a b false }
      else { s with decBusy := false, decReply := some none } := by
  rw [State.takeBit_eq, State.bitAt, State.seesAt_zero, State.seesAt_zero]
  cases s.sees m (symPair s.rom .one) <;> cases s.sees m (symPair s.rom .zero) <;> rfl

/-- Settles O25: a matching Pair writes its bit, and a failure writes none. -/
theorem decoderBitRuns : Obligations.DecoderBitRuns := by
  refine ⟨fun _ _ => rfl, fun a b s ha hb hrom hw => ?_⟩
  have hbit : recordBitExists a b = true := by simp [recordBitExists, ha, hb]
  have hwritten : ∀ v, (s.decAcc.writeBit a b v).readBit (8 * a + b) = v := by
    intro v
    rw [Memory.readBit_writeBit hw hb, if_pos rfl]
  have hothers : ∀ v j, j ≠ 8 * a + b → (s.decAcc.writeBit a b v).readBit j = s.decAcc.readBit j := by
    intro v j hj
    rw [Memory.readBit_writeBit hw hb, if_neg hj]
  have hone : symPair s.rom .one = ⟨680, 1530⟩ := by rw [hrom]; rfl
  have hzero : symPair s.rom .zero = ⟨680, 510⟩ := by rw [hrom]; rfl
  refine ⟨_, exec_dBit hbit s, ?_⟩
  rw [finishBit_takeBit, hone, hzero]
  split_ifs
  · exact ⟨⟨rfl, hwritten true⟩, Memory.wf_writeBit hw ha b true, hothers true⟩
  · exact ⟨⟨rfl, hwritten false⟩, Memory.wf_writeBit hw ha b false, hothers false⟩
  · exact ⟨rfl, hw, fun _ _ => rfl⟩

/-- A bit of a byte by its linear bit address (R15). -/
theorem Memory.getLsbD_read (mem : Memory) (a : Nat) {b : Nat} (hb : b < 8) :
    (mem.read a).getLsbD b = mem.readBit (8 * a + b) := by
  have hbyte : (8 * a + b) / 8 = a := by omega
  have hbit : (8 * a + b) % 8 = b := by omega
  rw [Memory.readBit, hbyte, hbit]

/-- The bits taken into a block are whether their Pairs match ONE (R124, R125). -/
theorem State.blockAcc_bit (s : State) (m : Matcher) {lo : BitVec 5} (hlo : blockLegal lo = true) (hw : s.decAcc.wf = true)
    {n k : Nat} (hn : n ≤ 32) (hk : k < n) :
    (s.blockAcc m lo n).readBit (8 * lo.toNat + k) = s.seesAt m k (symPair s.rom .one) := by
  obtain ⟨-, hbits⟩ := s.blockAcc_spec m lo hlo hw n hn
  rw [hbits, if_pos (by omega), Nat.add_sub_cancel_left]

/-- The bits taken into a block change no byte outside it (R125). -/
theorem State.blockAcc_outside (s : State) (m : Matcher) {lo : BitVec 5} (hlo : blockLegal lo = true)
    (hw : s.decAcc.wf = true) {n a : Nat} (hn : n ≤ 32) (ha : a < lo.toNat ∨ lo.toNat + 4 ≤ a) :
    (s.blockAcc m lo n).read a = s.decAcc.read a := by
  obtain ⟨-, hbits⟩ := s.blockAcc_spec m lo hlo hw n hn
  refine BitVec.eq_of_getLsbD_eq fun b hb => ?_
  rw [Memory.getLsbD_read _ a hb, Memory.getLsbD_read _ a hb, hbits, if_neg (by omega)]

/-- On a block address, BYTES runs its sub-steps, and their `ok` moves the schedule index on or ends the decode (R125). -/
theorem exec_decBytes {lo : BitVec 5} (hlo : blockLegal lo = true) (s : State) :
    exec (.decBytes lo) s = .next (finishUop (decBlock Config.matchFn lo s)) :=
  if_pos hlo

/-- Settles O26: the closed form of a block, and what its bits leave in DEC.acc. -/
theorem decoderBytesRuns : Obligations.DecoderBytesRuns := by
  refine ⟨standsAt_of_lt rfl (by decide) (by decide), standsAt_of_lt rfl (by decide) (by decide),
    standsAt_of_lt rfl (by decide) (by decide), standsAt_of_lt rfl (by decide) (by decide), fun lo s hlo hrom hw => ?_⟩
  have hlegal := blockLegal_iff.mpr hlo
  have hone : symPair s.rom .one = ⟨680, 1530⟩ := by rw [hrom]; rfl
  have hzero : symPair s.rom .zero = ⟨680, 510⟩ := by rw [hrom]; rfl
  have hhit : (fun k => !s.bitAt Config.matchFn k) =
      fun k => !(s.seesAt Config.matchFn k ⟨680, 1530⟩ || s.seesAt Config.matchFn k ⟨680, 510⟩) := by
    simp only [State.bitAt, hone, hzero]
  refine ⟨_, exec_decBytes hlegal s, ?_⟩
  rw [decBlock_eq, hhit]
  change (match (List.range 32).find? fun k =>
    !(s.seesAt Config.matchFn k ⟨680, 1530⟩ || s.seesAt Config.matchFn k ⟨680, 510⟩) with | none => _ | some i => _) ∧ _
  cases hfind : (List.range 32).find? fun k =>
    !(s.seesAt Config.matchFn k ⟨680, 1530⟩ || s.seesAt Config.matchFn k ⟨680, 510⟩) with
  | none =>
    refine ⟨⟨rfl, fun k hk => ?_⟩, (s.blockAcc_spec _ lo hlegal hw 32 (le_refl 32)).1,
      fun a => s.blockAcc_outside _ hlegal hw (le_refl 32)⟩
    have hbyte : 8 * (lo.toNat + k / 8) + k % 8 = 8 * lo.toNat + k := by omega
    rw [Memory.getLsbD_read _ _ (Nat.mod_lt k (by decide)), hbyte]
    exact (s.blockAcc_bit _ hlegal hw (le_refl 32) hk).trans (by rw [hone]; rfl)
  | some i =>
    have hi : i ≤ 32 := (List.mem_range.mp (List.mem_of_find?_eq_some hfind)).le
    exact ⟨rfl, (s.blockAcc_spec _ lo hlegal hw i hi).1, fun a => s.blockAcc_outside _ hlegal hw hi⟩

/-- Settles O27: END packs the accumulator. -/
theorem decoderEndRuns : Obligations.DecoderEndRuns :=
  ⟨standsAt_of_lt rfl (by decide) (by decide), fun s => ⟨s.decAcc.pack, rfl, fun _ => s.decAcc.recByte_pack⟩⟩

end Sys2Proof.Machine
end

section
/-! The reply a train is owed (R85, R124, R133 to R139): what it says of the train's Pairs, and what it is for a frame, for a train cut
or lengthened, and for one with a wrong Pair. -/

namespace Sys2Proof.Machine

/-- A train that is owed a record has 140 Pairs that pass, and its data bits are the record's (R120 to R130). -/
theorem decodeReply_eq_some {m : Matcher} {rom : TimingRom} {train : Train} {r : RecordBits}
    (h : decodeReply m rom train = some r) :
    (∀ i, i < 140 → passAt m rom train i = true) ∧ ∀ j, j < 128 → valueAt m rom train j = recBit r j := by
  rw [decodeReply_eq] at h
  split at h
  · next hall =>
    cases h
    refine ⟨fun i hi => List.all_eq_true.mp hall i (List.mem_range.mpr hi), fun j hj => ?_⟩
    simp [recBit_eq, hj]
  · cases h

/-- The reply owed depends on the first 140 Pairs alone (R134). -/
theorem decodeReply_congr {m : Matcher} {rom : TimingRom} {train train' : Train}
    (h : train.take 140 = train'.take 140) : decodeReply m rom train = decodeReply m rom train' := by
  have hpair : ∀ i, i < 140 → train[i]? = train'[i]? := by
    intro i hi
    rw [← List.getElem?_take_of_lt hi, h, List.getElem?_take_of_lt hi]
  have hpass : ∀ i, i < 140 → passAt m rom train i = passAt m rom train' i := by
    intro i hi
    rw [passAt, passAt, hpair i hi]
  have hvalue : ∀ j, j < 128 → valueAt m rom train j = valueAt m rom train' j := by
    intro j hj
    rw [valueAt, valueAt, hpair _ (dataIndex_lt hj)]
  have hall : (List.range 140).all (passAt m rom train) = (List.range 140).all (passAt m rom train') := by
    rw [Bool.eq_iff_iff, List.all_eq_true, List.all_eq_true]
    exact forall₂_congr fun i hi => by rw [hpass i (List.mem_range.mp hi)]
  simp only [decodeReply_eq, hall, fun j : Fin 128 => hvalue j j.isLt]

/-- What is appended to a train that is owed a record is not examined (R134). -/
theorem decodeReply_append {m : Matcher} {rom : TimingRom} {train : Train} {r : RecordBits}
    (h : decodeReply m rom train = some r) (rest : Train) : decodeReply m rom (train ++ rest) = some r := by
  have hlength : 140 ≤ train.length := le_length_of_passAt (decodeReply_eq_some h).1
  rw [← h]
  exact decodeReply_congr (List.take_append_of_le_length hlength)

/-- The Pair of a data bit matches ONE exactly where the bit is 1 (R122). -/
theorem match_bitSym_one {m : Matcher} {rom : TimingRom} (hexact : Exact m rom) (hsep : SymSep m rom) (v : Bool) :
    m (symPair rom (bitSym v)) (symPair rom .one) = v := by
  cases v
  · exact hsep .zero .one (by decide)
  · exact hexact .one

/-- The symbol of a frame at a position passes there (R85, R122). -/
theorem Slot.passes_sym {m : Matcher} {rom : TimingRom} (hexact : Exact m rom) (r : RecordBits) (slot : Slot) :
    slot.passes m rom (symPair rom (slot.sym r)) = true := by
  cases slot with
  | framing y => exact hexact y
  | data j =>
    rw [Slot.passes, Slot.sym, Bool.or_eq_true]
    cases recBit r j
    · exact .inr (hexact .zero)
    · exact .inl (hexact .one)

/-- The frame of a record followed by any train is owed that record (R138). -/
theorem decodeReply_frame {m : Matcher} {rom : TimingRom} (hexact : Exact m rom) (hsep : SymSep m rom) (r : RecordBits)
    (rest : Train) : decodeReply m rom (frame rom r ++ rest) = some r := by
  refine decodeReply_append ?_ rest
  have hpair : ∀ i, i < 140 → (frame rom r)[i]? = some (symPair rom ((slotAt rom i).sym r)) := frameFollowsSlots rom r
  have hpass : ∀ i, i < 140 → passAt m rom (frame rom r) i = true :=
    fun i hi => passAt_iff.mpr ⟨_, hpair i hi, Slot.passes_sym hexact r _⟩
  have hbits : ∀ j, j < 128 → (Memory.latch r).readBit j = valueAt m rom (frame rom r) j := by
    intro j hj
    rw [valueAt_of_getElem? (hpair _ (dataIndex_lt hj)), slotAt_dataIndex rom hj, Slot.sym,
      match_bitSym_one hexact hsep, recBit_eq, ← Memory.getLsbD_pack _ hj, Memory.pack_latch]
  rw [decodeReply_of_passes hpass hbits, Memory.pack_latch]

/-- A train that starts with another symbol than HDR is owed none (R139). -/
theorem decodeReply_of_wrong_header {m : Matcher} {rom : TimingRom} {train : Train} {y : Sym} (hsep : SymSep m rom)
    (hy : y ≠ .hdr) (hfirst : train[0]? = some (symPair rom y)) : decodeReply m rom train = none := by
  refine decodeReply_of_fails (i := 0) (by decide) ?_
  rw [passAt, hfirst]
  exact hsep y .hdr hy

/-- A train whose Pair at a data position matches neither ONE nor ZERO is owed none (R139). -/
theorem decodeReply_of_bad_bit {m : Matcher} {rom : TimingRom} {train : Train} {j : Nat} {q : Pair} (hj : j < 128)
    (hq : train[dataIndex j]? = some q) (hone : m q (symPair rom .one) = false) (hzero : m q (symPair rom .zero) = false) :
    decodeReply m rom train = none := by
  refine decodeReply_of_fails (dataIndex_lt hj) ?_
  simp only [passAt, hq, slotAt_dataIndex rom hj, Slot.passes, hone, hzero, Bool.or_self]

/-- A train of fewer than 140 Pairs is owed none (R135). -/
theorem decodeReply_of_short {m : Matcher} {rom : TimingRom} {train : Train} (hshort : train.length < 140) :
    decodeReply m rom train = none := by
  refine decodeReply_of_fails hshort ?_
  rw [passAt, List.getElem?_eq_none (le_refl _)]

end Sys2Proof.Machine
end

section
/-! A DECODE alone on the machine (R120): what holds after each of its steps, and the step that delivers its reply. -/

namespace Sys2Proof.Machine

/-- The `n`-th step after a DECODE of `train` started has ended it (R120): the reply owed shows, `some` where END came with every Pair
of the frame consumed (R130), `none` where a Pair of the frame failed (R133). -/
structure DecodeEnded (m : Matcher) (rom : TimingRom) (train : Train) (n : Nat) (u : State) : Prop where
  idle : u.decBusy = false
  reply : u.decReply = some (decodeReply m rom train)
  cursor : (n = 13 ∧ u.srcCur = 140 ∧ decodeReply m rom train ≠ none) ∨ (u.srcCur < 140 ∧ decodeReply m rom train = none)

/-- What holds `n` steps after a DECODE of the train of `s` started, with no other transaction (R120): while it runs it is on track at
slot `n`, and a reply shows only where the `n`-th step has ended it. -/
structure DecodeAlone (m : Matcher) (s : State) (n : Nat) (u : State) : Prop where
  quiet : Quiet u
  encIdle : u.encBusy = false
  rom : u.rom = s.rom
  encSide : SameEncSide s u
  train : u.srcTrain = s.trainIn
  wf : u.decAcc.wf = true
  track : DecodeOnTrack m u
  slot : u.decBusy = true → u.decUpc.toNat = n
  ended : u.decReply ≠ none → DecodeEnded m s.rom s.trainIn n u

/-- A move that ends a DECODE on track is END, or meets a Pair of the frame that fails (R130, R133). -/
theorem DecodeOnTrack.ended {m : Matcher} {s t : State} (hs : DecodeOnTrack m s) (hbusy : s.decBusy = true)
    (hw : s.decAcc.wf = true) (hmove : unitStep m .dec s = .next t) (hidle : t.decBusy = false) :
    DecodeEnded m s.rom s.srcTrain (s.decUpc.toNat + 1) t := by
  obtain ⟨hupc, hcur, -, -⟩ := (decodeOnTrack_iff hbusy).mp hs
  by_cases hlast : s.decUpc.toNat = 12
  · rw [unitStep_dec_end m hlast] at hmove
    cases hmove
    have howed := hs.reply_at_end hbusy hlast
    exact ⟨rfl, by rw [howed]; rfl, .inl ⟨by omega, by rw [State.endDecode_srcCur, hcur, hlast]; rfl, by simp [howed]⟩⟩
  · have hlt : s.decUpc.toNat < 12 := by omega
    have hframe := decPairsBefore_succ_le hlt
    obtain ⟨t', ht', hseg | hseg⟩ := unitStep_dec_cases m s hlt hcur hw
    · cases hmove.symm.trans ht'
      exact absurd (hseg.busy.trans hbusy) (by simp [hidle])
    · cases hmove.symm.trans ht'
      obtain ⟨i, -, hi, hfails⟩ := hseg.fails
      have howed := decodeReply_of_fails (lt_of_lt_of_le hi hframe) hfails
      exact ⟨hidle, by rw [hseg.reply, howed], .inr ⟨lt_of_lt_of_le hseg.cur hframe, howed⟩⟩

/-- A step on which one unit moves, the other being idle, withdraws the replies and is that unit's move (R36, R60). -/
theorem stepUnder_alone (m : Matcher) {s : State} {unit : UnitId} (hmover : s.nextMover = .unit unit)
    (hone : (s.encBusy && s.decBusy) = false) : stepUnder m s = unitStep m unit s.takeReplies := by
  rw [stepUnder, cycle_unit _ hmover, afterPick_of_one hone, unitStep]

/-- With DEC alone busy and no input waiting, a step withdraws the replies and is a move of DEC (R36, R60). -/
theorem stepUnder_dec_alone (m : Matcher) {s : State} (hs : Quiet s) (henc : s.encBusy = false) (hdec : s.decBusy = true) :
    stepUnder m s = unitStep m .dec s.takeReplies := by
  have hmover := nextMover_unit hs.inputFree (.inr hdec)
  rw [if_neg (by simp [henc])] at hmover
  exact stepUnder_alone m hmover (by simp [henc])

variable {m : Matcher} {s u : State} {n : Nat}

/-- A running DECODE goes on to its next slot, or the step ends it. -/
theorem DecodeAlone.step_busy (hu : DecodeAlone m s n u) (hbusy : u.decBusy = true) :
    ∃ t, stepUnder m u = .next t ∧ DecodeAlone m s (n + 1) t ∧
      (t.decBusy = true ∨ DecodeEnded m s.rom s.trainIn (n + 1) t) := by
  have hpicked : DecodeOnTrack m u.takeReplies := hu.track
  obtain ⟨t, hmove, htrack, hupc, -⟩ := hpicked.move hbusy hu.wf
  have hwf := unitStep_dec_wf hmove hu.wf
  have hended := hpicked.ended hbusy hu.wf hmove
  rw [State.takeReplies_rom, State.takeReplies_srcTrain, State.takeReplies_decUpc, hu.rom, hu.train, hu.slot hbusy] at hended
  rw [State.takeReplies_decUpc, hu.slot hbusy] at hupc
  have hshows : t.decReply ≠ none → DecodeEnded m s.rom s.trainIn (n + 1) t :=
    fun hreply => hended ((unitStep_dec_reply hmove).resolve_left hreply)
  refine ⟨t, (stepUnder_dec_alone m hu.quiet hu.encIdle hbusy).trans hmove, ?_, ?_⟩
  · rw [unitStep_dec_frame hmove] at htrack hwf hupc hshows ⊢
    exact ⟨hu.quiet, hu.encIdle, hu.rom, hu.encSide, hu.train, hwf, htrack, hupc, hshows⟩
  · cases hidle : t.decBusy with
    | true => exact .inl rfl
    | false => exact .inr (hended hidle)

/-- After its end a DECODE shows nothing any more (R36, R37). -/
theorem DecodeAlone.step_idle (hu : DecodeAlone m s n u) (hidle : u.decBusy = false) :
    stepUnder m u = .next u.takeReplies ∧ DecodeAlone m s (n + 1) u.takeReplies :=
  ⟨cycle_idle _ hu.quiet.inputFree hu.encIdle hidle, hu.quiet, hu.encIdle, hu.rom, hu.encSide, hu.train, hu.wf, hu.track,
    by simp [hidle], by simp⟩

/-- The train of a pending DECODE is the one the host drives (R40). -/
theorem DecodeReady.trainIn_eq {train : Train} (hs : DecodeReady s train) : s.trainIn = train := by
  obtain ⟨-, -, -, -, -, htrain⟩ := hs
  exact htrain

/-- A pending DECODE starts on its idle unit (R90, R120). -/
theorem stepUnder_decode (m : Matcher) (hreset : s.resetReq = false) (hcmd : s.cmd = 0b10) (hidle : s.decBusy = false) :
    stepUnder m s = .next (State.startDecode (State.takeReplies { s with cmd := 0 })) := by
  rw [stepUnder, cycle_host _ hreset (by simp [hcmd]), hcmd, runWord_ok (show decode (.cmd 0b10) = .ok .decode from rfl)]
  exact exec_decode hidle

/-- The state right after a DECODE has started with nothing else at work. -/
theorem decodeAlone_start (m : Matcher) {train : Train} (hs : DecodeReady s train) (hw : s.decAcc.wf = true) :
    DecodeAlone m s 0 (State.startDecode (State.takeReplies { s with cmd := 0 })) := by
  obtain ⟨hreset, -, hwire, henc, -, -⟩ := hs
  exact ⟨⟨hreset, rfl, hwire⟩, henc, rfl, ⟨rfl, rfl, rfl, rfl, rfl, rfl, rfl⟩, rfl, hw, decodeOnTrack_startDecode m _,
    fun _ => rfl, by simp⟩

/-- Whatever state the run of a pending DECODE reaches, what holds of a DECODE alone holds of it. -/
theorem decodeAlone_of_run {train : Train} (hs : DecodeReady s train) (hw : s.decAcc.wf = true)
    (hrun : runMoves (stepUnder m) (n + 1) s = .next u) : DecodeAlone m s n u := by
  have hreached : ∃ v, runMoves (stepUnder m) (n + 1) s = .next v ∧ DecodeAlone m s n v := by
    clear hrun
    induction n with
    | zero =>
      obtain ⟨hreset, hcmd, -, -, hdec, -⟩ := id hs
      exact ⟨_, runMoves_succ (stepUnder_decode m hreset hcmd hdec) 0, decodeAlone_start m hs hw⟩
    | succ n ih =>
      obtain ⟨v, hv, halone⟩ := ih
      cases hbusy : v.decBusy with
      | true =>
        obtain ⟨t, hstep, ht, -⟩ := halone.step_busy hbusy
        exact ⟨t, runMoves_snoc hv hstep, ht⟩
      | false =>
        obtain ⟨hstep, ht⟩ := halone.step_idle hbusy
        exact ⟨_, runMoves_snoc hv hstep, ht⟩
  obtain ⟨v, hv, halone⟩ := hreached
  cases hrun.symm.trans hv
  exact halone

/-- A running DECODE delivers the reply owed within the slots it has left (R120). -/
theorem DecodeAlone.delivers {k : Nat} (hk : n + k = 13) (hu : DecodeAlone m s n u) (hbusy : u.decBusy = true) :
    ReachesWithin (stepUnder m) k u fun t => Quiet t ∧ t.rom = s.rom ∧ SameEncSide s t ∧ t.decBusy = false ∧
      t.decReply = some (decodeReply m s.rom s.trainIn) := by
  induction k generalizing n u with
  | zero =>
    obtain ⟨hupc, -⟩ := hu.track hbusy
    have hslot := hu.slot hbusy
    omega
  | succ k ih =>
    obtain ⟨t, hstep, ht, hstill | hended⟩ := hu.step_busy hbusy
    · exact (ih (by omega) ht hstill).after_move hstep
    · exact reachesWithin_of_move hstep ⟨ht.quiet, ht.rom, ht.encSide, hended.idle, hended.reply⟩ k

/-- Settles O28: the command's step, then at most 13 steps to the reply owed. -/
theorem decodeRepliesByPosition : Obligations.DecodeRepliesByPosition := by
  intro m s train hs hw
  obtain ⟨hreset, hcmd, -, -, hdec, rfl⟩ := id hs
  have hreach := (decodeAlone_start m hs hw).delivers (k := 13) rfl rfl
  obtain ⟨k, u, h1, hk, hrun, ⟨-, hnone, -⟩, hrom, hside, hidle, hreply⟩ :=
    hreach.after_move (stepUnder_decode m hreset hcmd hdec)
  exact ⟨k, u, h1, hk, hrun, hidle, hreply, hnone, hrom, hside⟩

/-- A pending DECODE replies what its train is owed, and nothing else (R120). -/
theorem decodesTo_iff {train : Train} (hs : DecodeReady s train) (hw : s.decAcc.wf = true) {reply : Option RecordBits} :
    DecodesTo m s reply ↔ reply = decodeReply m s.rom train := by
  constructor
  · rintro ⟨k, u, h1, -, hrun, -, hshows⟩
    obtain ⟨n, rfl⟩ : ∃ n, k = n + 1 := ⟨k - 1, by omega⟩
    obtain ⟨-, -, -, -, -, rfl⟩ := id hs
    have hended := (decodeAlone_of_run hs hw hrun).ended (by simp [hshows])
    exact Option.some.inj (hshows.symm.trans hended.reply)
  · rintro rfl
    obtain ⟨k, u, h1, hk, hrun, hidle, hreply, -⟩ := decodeRepliesByPosition m s train hs hw
    exact ⟨k, u, h1, hk, hrun, hidle, hreply⟩

end Sys2Proof.Machine
end

section
/-! The statements about the reply of a DECODE (R134 to R140), each about the reply its train is owed. -/

namespace Sys2Proof.Machine

/-- Settles O29: the frame's train is owed its record, and the one step that shows a record is the 14th. -/
theorem roundTrip : Obligations.RoundTrip := by
  intro m s r rest hexact hsep hs hw
  obtain ⟨k, u, h1, hk, hrun, hidle, hreply, -⟩ := decodeRepliesByPosition m s _ hs hw
  obtain ⟨n, rfl⟩ : ∃ n, k = n + 1 := ⟨k - 1, by omega⟩
  have hcursor := ((decodeAlone_of_run hs hw hrun).ended (by simp [hreply])).cursor
  rw [hs.trainIn_eq, decodeReply_frame hexact hsep] at hcursor
  rw [decodeReply_frame hexact hsep] at hreply
  obtain ⟨rfl, hcur, -⟩ | ⟨-, hnone⟩ := hcursor
  · exact ⟨u, hrun, hidle, hreply, hcur⟩
  · cases hnone

/-- Settles O31: each of the three trains is owed none. -/
theorem mismatchRepliesNone : Obligations.MismatchRepliesNone := by
  intro m s train hs hw
  simp only [decodesTo_iff hs hw]
  refine ⟨?_, ?_, fun hshort => (decodeReply_of_short hshort).symm⟩
  · rintro ⟨y, hy, hfirst⟩ hsep
    exact (decodeReply_of_wrong_header hsep hy hfirst).symm
  · rintro ⟨j, q, hj, hq, hone, hzero⟩
    exact (decodeReply_of_bad_bit hj hq hone hzero).symm

/-- A pending DECODE with another train in its place is a pending DECODE of that train. -/
theorem DecodeReady.with_trainIn {s : State} {train : Train} (hs : DecodeReady s train) (train' : Train) :
    DecodeReady { s with trainIn := train' } train' := by
  obtain ⟨hreset, hcmd, hwire, henc, hdec, -⟩ := hs
  exact ⟨hreset, hcmd, hwire, henc, hdec, rfl⟩

/-- Settles O32: the reply owed is that of the first 140 Pairs. -/
theorem trailingPairsIgnored : Obligations.TrailingPairsIgnored := by
  intro m s train hs hw
  refine ⟨fun train' reply hsame h => ?_, fun rest r h => ?_⟩
  · rw [decodesTo_iff hs hw, decodeReply_congr hsame] at h
    exact (decodesTo_iff (hs.with_trainIn train') hw).mpr h
  · rw [decodesTo_iff hs hw] at h
    exact (decodesTo_iff (hs.with_trainIn (train ++ rest)) hw).mpr (decodeReply_append h.symm rest).symm

/-- Settles O33: the reply owed is a function of the matcher, the ROM and the train. -/
theorem decodeReadsNoOldState : Obligations.DecodeReadsNoOldState := by
  intro m s s' train reply hs hs' hrom hw hw' h
  rw [decodesTo_iff hs hw, hrom] at h
  exact (decodesTo_iff hs' hw').mpr h

end Sys2Proof.Machine
end

section
/-! A whole ENCODE by the machine's steps under every matcher, and the DECODE of what it leaves in the sink (R110, R138). -/

namespace Sys2Proof.Machine

variable {s : State}

/-- A pending ENCODE starts on its idle unit, under every matcher (R90, R100). -/
theorem stepUnder_encode (m : Matcher) (hreset : s.resetReq = false) (hcmd : s.cmd = 0b01) (hidle : s.encBusy = false) :
    stepUnder m s = .next (State.startEncode (State.takeReplies { s with cmd := 0 })) := by
  rw [stepUnder, cycle_host _ hreset (by simp [hcmd]), hcmd, runWord_ok (show decode (.cmd 0b01) = .ok .encode from rfl)]
  exact exec_encode hidle

/-- While an ENCODE that started with no reply on a port runs alone, the steps are ENC's moves, under every matcher (R36, R60). -/
theorem stepUnder_encodeAt (m : Matcher) (hreset : s.resetReq = false) (hcmd : s.cmd = 0) (hdec : s.decBusy = false)
    (hreplies : s.takeReplies = s) (n : Nat) : stepUnder m (s.encodeAt n) = unitStep m .enc (s.encodeAt n) := by
  have henc : (s.encodeAt n).encBusy = true := rfl
  have hidle : (s.encodeAt n).decBusy = false := hdec
  have hmover := nextMover_unit (inputFree_of_encBusy (s := s.encodeAt n) hreset hcmd henc) (.inl henc)
  rw [if_pos henc, if_neg (by simp [hidle])] at hmover
  rw [stepUnder_alone m hmover (by simp [hidle]), State.takeReplies_encodeAt, hreplies]

/-- The 15 steps from a pending ENCODE reach the reply done and the frame in the sink, under every matcher, and touch nothing of DEC
(R21, R110). -/
theorem runMoves_encode (m : Matcher) {r : RecordBits} (hs : EncodeReady s r) :
    ∃ u, runMoves (stepUnder m) 15 s = .next u ∧ u.encReply = true ∧ u.encBusy = false ∧ u.sinkTrain = frame s.rom r ∧
      u.rom = s.rom ∧ u.wire = none ∧ u.resetReq = false ∧ SameDecSide s u := by
  obtain ⟨hreset, hcmd, hwire, henc, hdec, rfl⟩ := hs
  have hmoves := stepUnder_encodeAt (s := State.takeReplies { s with cmd := 0 }) m hreset rfl hdec rfl
  refine ⟨_, (runMoves_succ (stepUnder_encode m hreset hcmd henc) 14).trans (runMoves_startEncode hmoves), ?_⟩
  rw [State.endEncode_encodeAt]
  simp [SameDecSide, hwire, hreset]

/-- Settles O30: the encode leaves the frame in the sink and DEC as it was, and that frame is owed its record. -/
theorem encodeThenDecode : Obligations.EncodeThenDecode := by
  intro m s r hexact hsep hs hw
  obtain ⟨u, hrun, hreply, henc, hsink, hrom, hwire, hreset, -, -, hbusy, hacc, -⟩ := runMoves_encode m hs
  obtain ⟨-, -, -, -, hdec, -⟩ := hs
  have howed := decodeReply_frame hexact hsep r []
  rw [List.append_nil, ← hsink, ← hrom] at howed
  have hready : DecodeReady { u with cmd := 0b10, trainIn := u.sinkTrain } u.sinkTrain :=
    ⟨hreset, rfl, hwire, henc, hbusy.symm.trans hdec, rfl⟩
  exact ⟨u, hrun, hreply, (decodesTo_iff hready (hacc ▸ hw)).mpr howed.symm⟩

end Sys2Proof.Machine
end

section
/-! How often a decode calls MATCH (R141): the calls of an expectation, of a bit and of a whole micro-operation that runs through. -/

namespace Sys2Proof.Machine

/-- An expectation that matches calls MATCH once (R121). -/
theorem State.expectCalls_of_sees {s : State} {m : Matcher} {p : Pair} (h : s.sees m p = true) : s.expectCalls = 1 := by
  refine if_pos (lt_of_not_ge fun hend => ?_)
  rw [State.sees_none (List.getElem?_eq_none hend)] at h
  cases h

/-- An expectation that comes out true calls MATCH once (R121). -/
theorem State.expectCalls_of_ok {s : State} {m : Matcher} {p : Pair} (h : (s.expect m p).1 = true) : s.expectCalls = 1 := by
  refine State.expectCalls_of_sees (m := m) (p := p) ?_
  by_contra hno
  rw [State.expect_eq, if_neg hno] at h
  cases h

/-- A chain of expectations that comes out true calls MATCH once for each (R17, R127). -/
theorem State.expectAllCalls_of_ok {s : State} {m : Matcher} {ps : List Pair} (h : (s.expectAll m ps).1 = true) :
    s.expectAllCalls m ps = ps.length := by
  induction ps generalizing s with
  | nil => rfl
  | cons p ps ih =>
    rw [State.expectAll_cons] at h
    by_cases hsees : s.sees m p = true
    · rw [if_pos hsees] at h
      rw [State.expectAllCalls, State.expectCalls_of_sees hsees, State.expect_eq, if_pos hsees, List.length_cons,
        Nat.add_comm 1]
      exact congrArg (· + 1) (ih h)
    · rw [if_neg hsees] at h
      cases h

/-- A Pair taken as a bit costs one call where it matches ONE, and two where it matches ZERO only (R124). -/
theorem State.bitCalls_of_bitAt {s : State} {m : Matcher} (h : s.bitAt m 0 = true) :
    s.bitCalls m = if s.sees m (symPair s.rom .one) then 1 else 2 := by
  have hcalls : s.expectCalls = 1 := by
    obtain hone | hzero := Bool.or_eq_true_iff.mp h
    · exact State.expectCalls_of_sees hone
    · exact State.expectCalls_of_sees hzero
  rw [State.bitCalls, hcalls]
  split <;> rfl

/-- The calls of the sub-steps of BYTES from bit `n` on, where all of them decode (R125). -/
theorem blockCalls_bitsTaken (s : State) (m : Matcher) (lo : BitVec 5) (len n : Nat)
    (hbits : ∀ k, n ≤ k → k < n + len → s.bitAt m k = true) :
    blockCalls m lo (List.range' n len) (s.bitsTaken m lo n) =
      ((List.range' n len).map fun k => if s.seesAt m k (symPair s.rom .one) then 1 else 2).sum := by
  induction len generalizing n with
  | zero => rfl
  | succ len ih =>
    have hbit : s.bitAt m n = true := hbits n (le_refl n) (by omega)
    have hfirst : (s.bitsTaken m lo n).bitCalls m = if s.seesAt m n (symPair s.rom .one) then 1 else 2 :=
      State.bitCalls_of_bitAt (s := s.bitsTaken m lo n) hbit
    rw [List.range'_succ, blockCalls, hfirst, State.takeBit_bitsTaken, if_pos hbit, List.map_cons, List.sum_cons]
    exact congrArg _ (ih (n + 1) fun k hlow hhigh => hbits k (by omega) (by omega))

theorem State.bitsTaken_zero (s : State) (m : Matcher) (lo : BitVec 5) : s.bitsTaken m lo 0 = s := by
  rw [State.bitsTaken, State.blockAcc_zero]
  rfl

/-- A block that comes out true has taken 32 bits, each of which decodes (R125). -/
theorem decBlock_of_ok {s : State} {m : Matcher} {lo : BitVec 5} (h : (decBlock m lo s).1 = true) :
    decBlock m lo s = (true, s.bitsTaken m lo 32) ∧ ∀ k, k < 32 → s.bitAt m k = true := by
  rw [decBlock_eq] at h ⊢
  cases hfind : (List.range 32).find? fun k => !s.bitAt m k with
  | none => exact ⟨rfl, fun k hk => by simpa using List.find?_eq_none.mp hfind k (List.mem_range.mpr hk)⟩
  | some i => simp [hfind] at h

/-- One call for each 1 and two for each 0 are two for each less the number of 1s. -/
theorem sum_calls_add_countP (bit : Nat → Bool) (ks : List Nat) :
    (ks.map fun k => if bit k then 1 else 2).sum + ks.countP bit = 2 * ks.length := by
  induction ks with
  | nil => rfl
  | cons k ks ih =>
    rw [List.map_cons, List.sum_cons, List.countP_cons, List.length_cons]
    split <;> omega

theorem blockOnes_le (r : RecordBits) (lo : Nat) : blockOnes r lo ≤ 32 :=
  List.countP_le_length.trans List.length_range.le

/-- The calls of a block that runs through: 64 less one for each bit that is 1 (R124, R125). -/
theorem blockCalls_of_ok {s : State} {m : Matcher} {lo : BitVec 5} {r : RecordBits} (h : (decBlock m lo s).1 = true)
    (hbits : ∀ k, k < 32 → s.seesAt m k (symPair s.rom .one) = recBit r (8 * lo.toNat + k)) :
    blockCalls m lo (List.range 32) s = 64 - blockOnes r lo.toNat := by
  have hcalls := blockCalls_bitsTaken s m lo 32 0 fun k _ hk => (decBlock_of_ok h).2 k (by omega)
  have hmap : (List.range 32).map (fun k => if s.seesAt m k (symPair s.rom .one) then 1 else 2) =
      (List.range 32).map (fun k => if recBit r (8 * lo.toNat + k) then 1 else 2) :=
    List.map_congr_left fun k hk => by rw [hbits k (List.mem_range.mp hk)]
  have hsum := sum_calls_add_countP (fun k => recBit r (8 * lo.toNat + k)) (List.range 32)
  rw [State.bitsTaken_zero, ← List.range_eq_range', hmap] at hcalls
  rw [List.length_range] at hsum
  rw [hcalls, blockOnes]
  omega

/-- A micro-operation that leaves DEC running came out true (R120, R133). -/
theorem ok_of_finishUop_busy {c : Checked} {t : State}
    (h : Host.Outcome.next (φ := Fault) (ρ := Refusal) (finishUop c) = .next t) (hbusy : t.decBusy = true) : c.1 = true := by
  cases h
  by_contra hno
  rw [finishUop, if_neg hno] at hbusy
  cases hbusy

end Sys2Proof.Machine
end

section
/-! How often a decode that replies a record calls MATCH (R141), slot by slot of its schedule. -/

namespace Sys2Proof.Machine

/-- The calls of MATCH at slot `n` of a decode that replies `r`: one for each framing Pair, one for each bit that is 1 and two for each
that is 0, and none at END (R87, R141). -/
def slotCalls (r : RecordBits) : Nat → Nat
  | 1 => 64 - blockOnes r 0
  | 2 => 3
  | 4 => 64 - blockOnes r 4
  | 7 => 64 - blockOnes r 8
  | 8 => 3
  | 10 => 64 - blockOnes r 12
  | 12 => 0
  | _ => 1

/-- The calls at all 13 slots (R141). -/
theorem sum_slotCalls (r : RecordBits) :
    ((List.range' 0 13).map (slotCalls r)).sum = 12 + ones r + 2 * (128 - ones r) := by
  have h0 := blockOnes_le r 0
  have h4 := blockOnes_le r 4
  have h8 := blockOnes_le r 8
  have h12 := blockOnes_le r 12
  rw [ones_eq_blockOnes]
  change 1 + ((64 - blockOnes r 0) + (3 + (1 + ((64 - blockOnes r 4) + (1 + (1 + ((64 - blockOnes r 8) + (3 + (1 +
    ((64 - blockOnes r 12) + (1 + (0 + 0)))))))))))) = _
  omega

theorem ones_le (r : RecordBits) : ones r ≤ 128 := by
  have h0 := blockOnes_le r 0
  have h4 := blockOnes_le r 4
  have h8 := blockOnes_le r 8
  have h12 := blockOnes_le r 12
  rw [ones_eq_blockOnes]
  omega

variable {m : Matcher} {s t : State} {r : RecordBits}

/-- The calls of BYTES where it reads the bits of the record `r` (R124, R125). -/
theorem instrCalls_decBytes {lo : BitVec 5} (hlo : blockLegal lo = true) (hw : s.decAcc.wf = true)
    (hexec : execUnder m (.decBytes lo) s = .next t) (hbusy : t.decBusy = true)
    (hbits : ∀ k, k < 32 → t.decAcc.readBit (8 * lo.toNat + k) = recBit r (8 * lo.toNat + k)) :
    instrCalls m (.decBytes lo) s = 64 - blockOnes r lo.toNat := by
  have hrun : execUnder m (.decBytes lo) s = .next (finishUop (decBlock m lo s)) := if_pos hlo
  rw [hrun] at hexec
  have hok := ok_of_finishUop_busy hexec hbusy
  refine blockCalls_of_ok hok fun k hk => ?_
  rw [(decBlock_of_ok hok).1] at hexec
  cases hexec
  rw [← hbits k hk]
  exact (s.blockAcc_bit m hlo hw (le_refl 32) hk).symm

theorem toNat_le_of_blockLegal {lo : BitVec 5} (hlo : blockLegal lo = true) : lo.toNat ≤ 12 := by
  revert lo
  decide

/-- The calls of the micro-operation at slot `n` where it runs through and the bits of DEC.acc so far are those of `r`. -/
theorem instrCalls_of_busy {n : Nat} {i : Instr} (hn : n < 12) (hi : decProgram[n]? = some i) (hw : s.decAcc.wf = true)
    (hexec : execUnder m i s = .next t) (hbusy : t.decBusy = true)
    (hbits : ∀ j, j < 128 → dataIndex j < decPairsBefore (n + 1) → t.decAcc.readBit j = recBit r j) :
    instrCalls m i s = slotCalls r n := by
  have hblock : ∀ lo : BitVec 5, blockLegal lo = true → i = .decBytes lo →
      (∀ k, k < 32 → dataIndex (8 * lo.toNat + k) < decPairsBefore (n + 1)) →
      instrCalls m i s = 64 - blockOnes r lo.toNat := by
    rintro lo hlo rfl hindex
    have hlast := toNat_le_of_blockLegal hlo
    exact instrCalls_decBytes hlo hw hexec hbusy fun k hk => hbits _ (by omega) (hindex k hk)
  interval_cases n <;> obtain rfl := Option.some.inj hi
  · exact State.expectCalls_of_ok (ok_of_finishUop_busy hexec hbusy)
  · exact hblock 0 rfl rfl (by decide)
  · exact State.expectAllCalls_of_ok (ok_of_finishUop_busy hexec hbusy)
  · exact State.expectCalls_of_ok (ok_of_finishUop_busy hexec hbusy)
  · exact hblock 4 rfl rfl (by decide)
  · exact State.expectCalls_of_ok (ok_of_finishUop_busy hexec hbusy)
  · exact State.expectCalls_of_ok (ok_of_finishUop_busy hexec hbusy)
  · exact hblock 8 rfl rfl (by decide)
  · exact State.expectAllCalls_of_ok (ok_of_finishUop_busy hexec hbusy)
  · exact State.expectCalls_of_ok (ok_of_finishUop_busy hexec hbusy)
  · exact hblock 12 rfl rfl (by decide)
  · exact State.expectCalls_of_ok (ok_of_finishUop_busy hexec hbusy)

/-- The calls of a running decode are those of the micro-operation at its slot and those of the moves after it. -/
theorem decodeCalls_succ {i : Instr} (hbusy : s.decBusy = true) (hi : decProgram[s.decUpc.toNat]? = some i)
    (hexec : execUnder m i s = .next t) (k : Nat) : decodeCalls m (k + 1) s = instrCalls m i s + decodeCalls m k t := by
  have hdecoded := decode_decRom s.decUpc.toNat
  rw [hi] at hdecoded
  obtain ⟨w, hw, hdecode⟩ := Option.map_eq_some_iff.mp hdecoded
  have hword : s.unitWord .dec = some (.uop .dec w) := congrArg (Option.map _) hw
  rw [decodeCalls, if_pos hbusy]
  simp only [hword, hdecode, hexec]

/-- A move of DEC is the micro-operation at its slot. -/
theorem exists_execUnder_of_unitStep (hmove : unitStep m .dec s = .next t) :
    ∃ i, decProgram[s.decUpc.toNat]? = some i ∧ execUnder m i s = .next t := by
  rw [unitStep, unitCycle_dec] at hmove
  cases hi : decProgram[s.decUpc.toNat]? with
  | none => simp [hi] at hmove
  | some i => exact ⟨i, rfl, by simpa only [hi] using hmove⟩

/-- A decode on track whose train is owed a record goes on before its last slot, and the bits it has taken are the record's. -/
theorem DecodeOnTrack.goes_on (hs : DecodeOnTrack m s) (hbusy : s.decBusy = true) (hw : s.decAcc.wf = true)
    (howed : decodeReply m s.rom s.srcTrain = some r) (hlt : s.decUpc.toNat < 12) :
    ∃ t, unitStep m .dec s = .next t ∧ DecodeOnTrack m t ∧ t.decBusy = true ∧ t.decUpc.toNat = s.decUpc.toNat + 1 ∧
      decodeReply m t.rom t.srcTrain = some r ∧
      ∀ j, j < 128 → dataIndex j < decPairsBefore (s.decUpc.toNat + 1) → t.decAcc.readBit j = recBit r j := by
  obtain ⟨t, hmove, htrack, hupc, -⟩ := hs.move hbusy hw
  have hstill : t.decBusy = true := by
    by_contra hidle
    obtain ⟨hlast, -⟩ | ⟨-, hnone⟩ := (hs.ended hbusy hw hmove (by simpa using hidle)).cursor
    · omega
    · simp [howed] at hnone
  have hsame : decodeReply m t.rom t.srcTrain = some r := by
    rw [unitStep_dec_frame hmove]
    exact howed
  obtain ⟨-, hcur, -, hbits⟩ := (decodeOnTrack_iff hstill).mp htrack
  refine ⟨t, hmove, htrack, hstill, hupc hstill, hsame, fun j hj hindex => ?_⟩
  rw [hbits j hj (by rwa [hcur, hupc hstill]), (decodeReply_eq_some hsame).2 j hj]

/-- The calls that a decode on track has before it, slot by slot, where its train is owed the record `r`. -/
theorem decodeCalls_of_owed {k n : Nat} (hk : n + k = 13) (hs : DecodeOnTrack m s) (hbusy : s.decBusy = true)
    (hw : s.decAcc.wf = true) (hslot : s.decUpc.toNat = n) (howed : decodeReply m s.rom s.srcTrain = some r) :
    decodeCalls m k s = ((List.range' n k).map (slotCalls r)).sum := by
  induction k generalizing n s with
  | zero => rfl
  | succ k ih =>
    rw [List.range'_succ, List.map_cons, List.sum_cons]
    by_cases hlast : n = 12
    · obtain ⟨rfl, rfl⟩ : n = 12 ∧ k = 0 := by omega
      exact decodeCalls_succ (t := s.endDecode (some s.decAcc.pack)) hbusy (i := .decEnd) (by rw [hslot]; rfl) rfl 0
    · obtain ⟨t, hmove, htrack, hstill, hnext, hsame, hbits⟩ := hs.goes_on hbusy hw howed (by omega)
      obtain ⟨i, hi, hexec⟩ := exists_execUnder_of_unitStep hmove
      have hrest := ih (n := n + 1) (by omega) htrack hstill (unitStep_dec_wf hmove hw) (by rw [hnext, hslot]) hsame
      rw [decodeCalls_succ hbusy hi hexec, hrest]
      rw [hslot] at hi hbits
      rw [instrCalls_of_busy (by omega) hi hw hexec hstill hbits]

/-- Settles O34: a reply shows only where the decode ends, and the calls are counted slot by slot. -/
theorem decodeConsumption : Obligations.DecodeConsumption := by
  intro m s u train k hs hw h1 _ hrun
  obtain ⟨n, rfl⟩ : ∃ n, k = n + 1 := ⟨k - 1, by omega⟩
  have hended := (decodeAlone_of_run hs hw hrun).ended
  refine ⟨fun r hreply => ?_, fun hreply => ?_⟩
  · obtain ⟨-, hshown, hcursor⟩ := hended (by simp [hreply])
    have howed : decodeReply m s.rom s.trainIn = some r := Option.some.inj (hshown.symm.trans hreply)
    have hcalls : decodeCalls m 13 s.startDecode = 12 + ones r + 2 * (128 - ones r) := by
      rw [decodeCalls_of_owed (k := 13) (n := 0) rfl (decodeOnTrack_startDecode m s) rfl hw rfl howed, sum_slotCalls]
    have hones := ones_le r
    obtain ⟨-, hcur, -⟩ | ⟨-, hnone⟩ := hcursor
    · exact ⟨hcur, hcalls, by omega, by omega⟩
    · simp [howed] at hnone
  · obtain ⟨-, hshown, hcursor⟩ := hended (by simp [hreply])
    have howed : decodeReply m s.rom s.trainIn = none := Option.some.inj (hshown.symm.trans hreply)
    obtain ⟨-, -, hsome⟩ | ⟨hcur, -⟩ := hcursor
    · exact absurd howed hsome
    · exact hcur

end Sys2Proof.Machine
end

section
/-! Where a step stops (R90, R150, R176): with both units on track every mover goes on, but for a command that is refused. -/

namespace Sys2Proof.Machine

/-- DEC moves at every slot of its ROM, wherever its cursor stands (R39, R87). -/
theorem exists_unitStep_dec (m : Matcher) {s : State} (hupc : s.decUpc.toNat ≤ 12) : ∃ t, unitStep m .dec s = .next t := by
  have hlt : s.decUpc.toNat < decProgram.length := Nat.lt_succ_of_le hupc
  have hmove : unitStep m .dec s = execUnder m decProgram[s.decUpc.toNat] s := by
    rw [unitStep, unitCycle_dec, List.getElem?_eq_getElem hlt]
  by_cases hend : decProgram[s.decUpc.toNat] = .decEnd
  · exact ⟨s.endDecode (some s.decAcc.pack), by rw [hmove, hend]; rfl⟩
  · obtain ⟨f, -, hexec⟩ := runsWork_of_mem_decProgram m (List.getElem_mem hlt) hend
    exact ⟨finishUop (f s), hmove.trans (hexec s)⟩

/-- A busy unit on track moves. -/
theorem exists_unitStep_of_onTrack {m : Matcher} {s : State} (henc : EncodeOnTrack s) (hdec : DecodeOnTrack m s) {u : UnitId}
    (hbusy : s.busy u = true) : ∃ t, unitStep m u s = .next t := by
  cases u with
  | enc =>
    obtain ⟨t, hmove, -⟩ := henc.move (m := m) hbusy
    exact ⟨t, hmove⟩
  | dec =>
    obtain ⟨hupc, -⟩ := hdec hbusy
    exact exists_unitStep_dec m hupc

/-- Only a busy unit is picked to move (R60). -/
theorem busy_of_nextMover {s : State} {u : UnitId} (h : s.nextMover = .unit u) : s.busy u = true := by
  unfold State.nextMover at h
  split_ifs at h
  split at h
  · next henc hdec =>
    cases u with
    | enc => exact henc
    | dec => exact hdec
  · next henc _ =>
    cases h
    exact henc
  · next _ hdec =>
    cases h
    exact hdec
  · cases h

/-- A step on which a unit moves goes on where both units are on track. -/
theorem exists_stepUnder_unit {m : Matcher} {s : State} (henc : EncodeOnTrack s) (hdec : DecodeOnTrack m s) {u : UnitId}
    (hmover : s.nextMover = .unit u) : ∃ t, stepUnder m s = .next t := by
  have hbusy := busy_of_nextMover hmover
  obtain ⟨l, hpick⟩ := s.afterPick_eq
  rw [stepUnder, cycle_unit _ hmover, hpick]
  exact exists_unitStep_of_onTrack (s := State.takeReplies { s with sched := l }) henc hdec (by cases u <;> exact hbusy)

/-- With both units on track and no command pending a step goes on: an append, whatever the Pair, a unit's move, or nothing (R150,
R157). -/
theorem exists_stepUnder_of_no_command {m : Matcher} {s : State} (henc : EncodeOnTrack s) (hdec : DecodeOnTrack m s)
    (hreset : s.resetReq = false) (hcmd : s.cmd = 0) : ∃ t, stepUnder m s = .next t := by
  by_cases hserved : (s.wire.isSome && !s.encBusy) = true
  · simp only [Bool.and_eq_true, Option.isSome_iff_exists, Bool.not_eq_true'] at hserved
    obtain ⟨⟨p, hwire⟩, hidle⟩ := hserved
    exact ⟨_, (cycle_wire _ hreset hcmd hidle hwire).trans (appendPair_eq m p _)⟩
  · have hfree : s.inputFree := ⟨hreset, hcmd, by simpa using hserved⟩
    by_cases hbusy : s.encBusy = true ∨ s.decBusy = true
    · exact exists_stepUnder_unit henc hdec (nextMover_unit hfree hbusy)
    · obtain ⟨hencIdle, hdecIdle⟩ : s.encBusy = false ∧ s.decBusy = false := by simpa using hbusy
      exact ⟨_, cycle_idle _ hfree hencIdle hdecIdle⟩

/-- The inputs that the spec refuses, each with its reason: the reserved command (R90) and a command to a busy unit (R176). -/
def RefusedInput (s : State) (why : Refusal) : Prop :=
  (s.cmd = 0b11 ∧ why = .rejected .reservedCommand) ∨
  (s.cmd = 0b01 ∧ s.encBusy = true ∧ why = .unitBusy .enc) ∨
  (s.cmd = 0b10 ∧ s.decBusy = true ∧ why = .unitBusy .dec)

/-- A pending ENCODE is refused while its unit is busy (R176). -/
theorem step_encode_of_busy {s : State} (hreset : s.resetReq = false) (hcmd : s.cmd = 0b01) (hbusy : s.encBusy = true) :
    step s = .refused (.unitBusy .enc) := by
  rw [step_host hreset (by simp [hcmd]), hcmd, runWord_ok (show decode (.cmd 0b01) = .ok .encode from rfl)]
  exact if_pos hbusy

/-- A pending DECODE is refused while its unit is busy (R176). -/
theorem step_decode_of_busy {s : State} (hreset : s.resetReq = false) (hcmd : s.cmd = 0b10) (hbusy : s.decBusy = true) :
    step s = .refused (.unitBusy .dec) := by
  rw [step_host hreset (by simp [hcmd]), hcmd, runWord_ok (show decode (.cmd 0b10) = .ok .decode from rfl)]
  exact if_pos hbusy

/-- The reserved command is refused (R90). -/
theorem step_reservedCommand {s : State} (hreset : s.resetReq = false) (hcmd : s.cmd = 0b11) :
    step s = .refused (.rejected .reservedCommand) := by
  obtain ⟨-, -, -, -, -, hreserved⟩ := commandCodes
  exact hreserved s hreset hcmd

/-- A pending command starts its transaction, or it is one that the spec refuses. -/
theorem step_command_next_or_refused {s : State} (hreset : s.resetReq = false) (hcmd : s.cmd ≠ 0) :
    (∃ t, step s = .next t) ∨ ∃ why, step s = .refused why ∧ RefusedInput s why := by
  have hcodes : s.cmd = 0b01 ∨ s.cmd = 0b10 ∨ s.cmd = 0b11 := by
    generalize s.cmd = c at hcmd
    revert c
    decide
  obtain hencode | hdecode | hreserved := hcodes
  · cases hbusy : s.encBusy with
    | false => exact .inl ⟨_, (step_eq_stepUnder s).trans (stepUnder_encode _ hreset hencode hbusy)⟩
    | true => exact .inr ⟨_, step_encode_of_busy hreset hencode hbusy, .inr (.inl ⟨hencode, hbusy, rfl⟩)⟩
  · cases hbusy : s.decBusy with
    | false => exact .inl ⟨_, (step_eq_stepUnder s).trans (stepUnder_decode _ hreset hdecode hbusy)⟩
    | true => exact .inr ⟨_, step_decode_of_busy hreset hdecode hbusy, .inr (.inr ⟨hdecode, hbusy, rfl⟩)⟩
  · exact .inr ⟨_, step_reservedCommand hreset hreserved, .inl ⟨hreserved, rfl⟩⟩

/-- With both units on track a step goes on, or its input is one that the spec refuses. -/
theorem step_next_or_refused {s : State} (henc : EncodeOnTrack s) (hdec : DecodeOnTrack Config.matchFn s) :
    (∃ t, step s = .next t) ∨ ∃ why, step s = .refused why ∧ RefusedInput s why := by
  cases hreset : s.resetReq with
  | true => exact .inl ⟨_, cycle_reset exec hreset⟩
  | false =>
    by_cases hcmd : s.cmd = 0
    · rw [step_eq_stepUnder]
      exact .inl (exists_stepUnder_of_no_command henc hdec hreset hcmd)
    · exact step_command_next_or_refused hreset hcmd

/-- Settles O47: a step goes on unless its input is one that the spec refuses, so it never faults. -/
theorem stepStopsOnlyOnRefusedInputs : Obligations.StepStopsOnlyOnRefusedInputs := by
  intro s henc hdec
  obtain ⟨t, hnext⟩ | ⟨why, hrefused, hinput⟩ := step_next_or_refused henc hdec
  · exact ⟨by simp [hnext], by simp [hnext]⟩
  · refine ⟨by simp [hrefused], fun why' h => ?_⟩
    cases hrefused.symm.trans h
    exact hinput

end Sys2Proof.Machine
end

section
/-! Reset (R170): the state it leads to, whatever it breaks off. -/

namespace Sys2Proof.Machine

/-- The reset state and every state that a reset leads to meet the three invariants: the buffers are empty and both units idle. -/
theorem State.applyReset_invariants (s : State) :
    BuffersCanonical s.applyReset ∧ EncodeOnTrack s.applyReset ∧ ∀ m, DecodeOnTrack m s.applyReset :=
  ⟨⟨rfl, rfl⟩, encodeOnTrack_of_idle rfl, fun _ => decodeOnTrack_of_idle rfl⟩

/-- Settles O40, field by field. -/
theorem resetState : Obligations.ResetState :=
  ⟨rfl, rfl, rfl, rfl, rfl, rfl, rfl⟩

/-- Settles O41: a requested reset goes before every other mover, and leads to `applyReset`. -/
theorem resetAbandonsTransactions : Obligations.ResetAbandonsTransactions := by
  intro s hreset
  obtain ⟨hbuffers, henc, hdec⟩ := s.applyReset_invariants
  exact ⟨_, cycle_reset exec hreset, rfl, rfl, rfl, rfl, rfl, rfl, rfl, rfl, rfl, henc, hdec, hbuffers⟩

/-- Settles O46: the reset state is what a reset makes of itself. -/
theorem invariantsHoldAtReset : Obligations.InvariantsHoldAtReset :=
  State.reset.applyReset_invariants

end Sys2Proof.Machine
end

section
/-! Hazards (R159, R176 to R178): commands to a busy and to an idle unit, the operand inputs during a transaction, and who may touch a
running ENCODE. -/

namespace Sys2Proof.Machine

/-- ENCODE is refused while its unit is busy (R176). -/
theorem exec_encode_of_busy {s : State} (hbusy : s.encBusy = true) : exec .encode s = .refused (.unitBusy .enc) :=
  if_pos hbusy

/-- DECODE is refused while its unit is busy (R176). -/
theorem exec_decode_of_busy {s : State} (hbusy : s.decBusy = true) : exec .decode s = .refused (.unitBusy .dec) :=
  if_pos hbusy

/-- A pending DECODE starts on its idle unit, at MATCH (R90, R120). -/
theorem step_decode {s : State} (hreset : s.resetReq = false) (hcmd : s.cmd = 0b10) (hidle : s.decBusy = false) :
    step s = .next (State.startDecode (State.takeReplies { s with cmd := 0 })) :=
  (step_eq_stepUnder s).trans (stepUnder_decode _ hreset hcmd hidle)

/-- Settles O37: each command on its busy and on its idle unit; the start of a transaction writes its own unit's side only. -/
theorem busyUnitRefusesCommand : Obligations.BusyUnitRefusesCommand := fun _ =>
  ⟨exec_encode_of_busy, exec_decode_of_busy, step_encode_of_busy, step_decode_of_busy,
    fun hreset hcmd hidle => ⟨_, step_encode hreset hcmd hidle, rfl, rfl, rfl, rfl, rfl, rfl, rfl, rfl⟩,
    fun hreset hcmd hidle => ⟨_, step_decode hreset hcmd hidle, rfl, rfl, rfl, rfl, rfl, rfl, rfl, rfl⟩⟩

/-- A move of ENC reads no operand input: the record was latched at the start (R55, R177). -/
theorem unitStep_enc_withInputs {m : Matcher} {s t : State} (h : unitStep m .enc s = .next t) (r : RecordBits) (train : Train) :
    unitStep m .enc { s with recIn := r, trainIn := train } = .next { t with recIn := r, trainIn := train } := by
  obtain hlt | ⟨hlast, rfl⟩ := unitStep_enc_inv h
  · rw [unitStep_enc_eq m s hlt] at h
    cases h
    exact unitStep_enc_eq m _ hlt
  · exact unitStep_enc_end m hlast

/-- DEC's work reads no operand input: it works on the train taken at the start (R33, R177). -/
theorem DecoderWork.withInputs {f : State → Checked} (hf : DecoderWork f) (s : State) (r : RecordBits) (train : Train) :
    f { s with recIn := r, trainIn := train } = ((f s).1, { (f s).2 with recIn := r, trainIn := train }) := by
  have hreads := hf.reads { s with recIn := r, trainIn := train } s
  rw [hf.frame s] at hreads ⊢
  exact hreads

/-- A move of DEC reads no operand input (R33, R177). -/
theorem unitStep_dec_withInputs {m : Matcher} {s t : State} (h : unitStep m .dec s = .next t) (r : RecordBits) (train : Train) :
    unitStep m .dec { s with recIn := r, trainIn := train } = .next { t with recIn := r, trainIn := train } := by
  obtain ⟨hlast, rfl⟩ | ⟨f, hf, rfl, hmove⟩ := unitStep_dec_inv h
  · exact unitStep_dec_end m hlast
  · rw [hmove { s with recIn := r, trainIn := train } rfl, hf.withInputs]
    unfold finishUop
    split <;> rfl

/-- Settles O52, unit by unit. -/
theorem inputsAreStable : Obligations.InputsAreStable := by
  intro m u s t r train h
  cases u with
  | enc => exact unitStep_enc_withInputs h r train
  | dec => exact unitStep_dec_withInputs h r train

/-- While an ENCODE runs, a step that is neither a reset nor ENC's own move starts a DECODE or is a move of DEC (R60, R176, R178). -/
theorem step_cases_of_encBusy {s t : State} (h : step s = .next t) (hbusy : s.encBusy = true) (hreset : s.resetReq = false)
    (hmover : s.nextMover ≠ .unit .enc) :
    t = State.startDecode (State.takeReplies { s with cmd := 0 }) ∨
    ∃ l, unitStep Config.matchFn .dec (State.takeReplies { s with sched := l }) = .next t := by
  by_cases hcmd : s.cmd = 0
  · obtain ⟨u, hu⟩ : ∃ u, s.nextMover = .unit u :=
      ⟨_, nextMover_unit (inputFree_of_encBusy hreset hcmd hbusy) (.inl hbusy)⟩
    cases u with
    | enc => exact absurd hu hmover
    | dec =>
      obtain ⟨l, hpick⟩ := s.afterPick_eq
      rw [step_eq_stepUnder, stepUnder, cycle_unit _ hu, hpick] at h
      exact .inr ⟨l, h⟩
  · obtain ⟨hencode, -⟩ | ⟨-, hstart⟩ := stepUnder_host_cases (step_eq_stepUnder s ▸ h) hreset hcmd
    · rw [step_encode_of_busy hreset hencode hbusy] at h
      cases h
    · exact .inl hstart

/-- Settles O51: neither the start of a DECODE nor a move of DEC writes ENC's side. -/
theorem sinkIsEncodersWhileBusy : Obligations.SinkIsEncodersWhileBusy := by
  intro s t hbusy hreset hmover h
  obtain rfl | ⟨l, hmove⟩ := step_cases_of_encBusy h hbusy hreset hmover
  · exact ⟨rfl, rfl, hbusy, rfl, rfl, rfl⟩
  · rw [unitStep_dec_frame hmove]
    exact ⟨rfl, rfl, hbusy, rfl, rfl, rfl⟩

end Sys2Proof.Machine
end
